-- ==== Sys2Proof/Word.lean ====
section
/-! DEFINITION. The data types of md5_engine: words, bytes, the four-word groups, one block, and the
named codes of the sequencer (00_scope.md R7, R8, R12; 10_state.md R27, R28, R30). -/

namespace Sys2Proof

/-- A word of the datapath: 32 bits, unsigned (R5 `WORD_W`, R8). Addition modulo 2^32 (`+32`) is `+` of
this type, and R10's complement, and, or, exclusive or are `~~~`, `&&&`, `|||`, `^^^`. -/
abbrev Word := BitVec 32

/-- A byte: 8 bits (R7). -/
abbrev Byte := BitVec 8

/-- Four words under the names the spec gives them: `A B C D` in the chaining state, `a b c d` in the
working variables (R12, R21, R23). -/
structure Quad where
  a : Word
  b : Word
  c : Word
  d : Word
  deriving DecidableEq, Repr, Inhabited

/-- One block: sixteen words `M[0..15]` (R24, R51). -/
abbrev Block := Vector Word 16

/-- `phase` (R27). Codes 5 to 7 are never produced (R27, U7) and have no constructor. -/
inductive Phase where
  | idle
  | absorb
  | final
  | done
  | fault
  deriving DecidableEq, Repr, Inhabited

/-- `fst`, the progress of finalisation (R28): 0, 1, 2. Code 3 is never produced (R28, U7). -/
inductive FinStage where
  | terminatorPlaced
  | spillDispatched
  | lengthDispatched
  deriving DecidableEq, Repr, Inhabited

/-- `fcode`, the cause of the latched fault (R30, R201): 0, 1, 2. Codes 3 to 7 are never produced. -/
inductive FaultCode where
  | none
  | illegalCmd
  | seqErr
  deriving DecidableEq, Repr, Inhabited

end Sys2Proof
end

