-- ==== Sys2Proof/Syntax.lean ====
section
/-! DEFINITION. The fourteen rows of spec/opcode_table.json: the six commands of the HOST (30_encoding.md
R81) and the eight steps of the ENGINE (R85). -/

namespace Sys2Proof

/-- One constructor a row of the opcode table. The operand of ABSORB, RDHEX and RDDIG is the `imm` field
as it stands in the command word (R82); WellFormed bounds it. -/
inductive Instr where
  /-- INIT (R151): start a message. -/
  | init
  /-- ABSORB (R112): append the byte `b` to the message. -/
  | absorb (b : Byte)
  /-- FINAL (R113): end the message. -/
  | final
  /-- RDHEX (R173): read character `k` of the digest string. -/
  | rdhex (k : Byte)
  /-- RDDIG (R172): read byte `j` of the digest. -/
  | rddig (j : Byte)
  /-- RDSTAT (R185): read the status byte. -/
  | rdstat
  /-- ROUND_F (R135): one round, `i` in 0..15. -/
  | roundF
  /-- ROUND_G (R136): one round, `i` in 16..31. -/
  | roundG
  /-- ROUND_H (R137): one round, `i` in 32..47. -/
  | roundH
  /-- ROUND_I (R138): one round, `i` in 48..63. -/
  | roundI
  /-- FEEDFWD (R139): add the working variables into the chaining state. -/
  | feedfwd
  /-- PADSTEP0 (R114): first step of finalisation. -/
  | padstep0
  /-- PADSTEP1 (R115): the length block after a spill. -/
  | padstep1
  /-- PADSTEP2 (R116): end of finalisation. -/
  | padstep2
  deriving DecidableEq, Repr

end Sys2Proof
end

