-- ==== Sys2Proof/WellFormed.lean ====
section
/-! DEFINITION. Which instructions an encoding can stand for (30_encoding.md R82, R86). -/

namespace Sys2Proof

/-- The operand is one the encoding admits: RDHEX takes `imm` 0x00 to 0x1f, RDDIG 0x00 to 0x0f, ABSORB
every byte (R86). The other instructions have no operand. -/
def Instr.wellFormed : Instr → Bool
  | .rdhex k => decide (k ≤ 0x1f#8)
  | .rddig j => decide (j ≤ 0x0f#8)
  | .absorb _ => true
  | .init => true
  | .final => true
  | .rdstat => true
  | .roundF => true
  | .roundG => true
  | .roundH => true
  | .roundI => true
  | .feedfwd => true
  | .padstep0 => true
  | .padstep1 => true
  | .padstep2 => true

end Sys2Proof
end

