-- ==== Sys2Proof/Decode.lean ====
section
/-! DEFINITION. The decoder and, after it, the encoder: CMD12 (30_encoding.md R80, R81, R86) and the
sequencer decode SEQ13 (R84, R85). -/

namespace Sys2Proof

/-! ## Codes of the sequencer fields -/

/-- The 3-bit code of `phase` (R27). -/
def Phase.code : Phase → BitVec 3
  | .idle => 0
  | .absorb => 1
  | .final => 2
  | .done => 3
  | .fault => 4

/-- The phase of a 3-bit code; codes 5 to 7 are never produced and stand for no phase (R27). -/
def Phase.ofCode (v : BitVec 3) : Option Phase :=
  if v = 0 then some .idle
  else if v = 1 then some .absorb
  else if v = 2 then some .final
  else if v = 3 then some .done
  else if v = 4 then some .fault
  else none

/-- The 2-bit code of `fst` (R28). -/
def FinStage.code : FinStage → BitVec 2
  | .terminatorPlaced => 0
  | .spillDispatched => 1
  | .lengthDispatched => 2

/-- The stage of a 2-bit code; code 3 is never produced (R28). -/
def FinStage.ofCode (v : BitVec 2) : Option FinStage :=
  if v = 0 then some .terminatorPlaced
  else if v = 1 then some .spillDispatched
  else if v = 2 then some .lengthDispatched
  else none

/-- The 3-bit code of `fcode` (R30, R201). -/
def FaultCode.code : FaultCode → BitVec 3
  | .none => 0
  | .illegalCmd => 1
  | .seqErr => 2

/-! ## The command word CMD12 -/

/-- `op = cmd[11:8]` (R80). -/
def opOf (cmd : BitVec 12) : BitVec 4 := cmd.extractLsb' 8 4

/-- `imm = cmd[7:0]` (R80). -/
def immOf (cmd : BitVec 12) : Byte := cmd.extractLsb' 0 8

/-- Why a word stands for no instruction. -/
inductive DecodeError where
  /-- `op` is 0x0 or 0x7 to 0xf (R81, R202). -/
  | reservedOp (op : BitVec 4)
  /-- INIT, FINAL or RDSTAT with `imm` other than 0x00 (R82, R202). -/
  | immNotZero (imm : Byte)
  /-- RDHEX with `imm` above 0x1f (R82, R202). -/
  | hexIndexTooLarge (imm : Byte)
  /-- RDDIG with `imm` above 0x0f (R82, R202). -/
  | digIndexTooLarge (imm : Byte)
  /-- No row of the sequencer decode matches (R85). -/
  | noSequencerRow (seq : BitVec 13)
  deriving DecidableEq, Repr

/-- The command decoder (R81, R86): total, reserved words rejected by name. -/
def decodeCmd (cmd : BitVec 12) : Except DecodeError Instr :=
  let op := opOf cmd
  let imm := immOf cmd
  if op = 0x1 then
    if imm = 0 then .ok .init else .error (.immNotZero imm)
  else if op = 0x2 then .ok (.absorb imm)
  else if op = 0x3 then
    if imm = 0 then .ok .final else .error (.immNotZero imm)
  else if op = 0x4 then
    if imm ≤ 0x1f then .ok (.rdhex imm) else .error (.hexIndexTooLarge imm)
  else if op = 0x5 then
    if imm ≤ 0x0f then .ok (.rddig imm) else .error (.digIndexTooLarge imm)
  else if op = 0x6 then
    if imm = 0 then .ok .rdstat else .error (.immNotZero imm)
  else .error (.reservedOp op)

/-- A command word is legal exactly when it decodes (R86). -/
def legalCmd (cmd : BitVec 12) : Bool := (decodeCmd cmd).toBool

/-- Whether a word produces a response byte depends on `op` alone: 0x4, 0x5 or 0x6 (R83). -/
def respondsOp (op : BitVec 4) : Bool := op == 0x4 || op == 0x5 || op == 0x6

/-! ## The sequencer decode SEQ13 -/

/-- The rows of R85, each as `seq & mask = match`. A bit outside the mask is not looked at. -/
def decodeSeq (seq : BitVec 13) : Except DecodeError Instr :=
  if seq &&& 0x00f0 = 0x0080 then .ok .roundF
  else if seq &&& 0x00f0 = 0x0090 then .ok .roundG
  else if seq &&& 0x00f0 = 0x00a0 then .ok .roundH
  else if seq &&& 0x00f0 = 0x00b0 then .ok .roundI
  else if seq &&& 0x00ff = 0x00c0 then .ok .feedfwd
  else if seq &&& 0x1f80 = 0x0800 then .ok .padstep0
  else if seq &&& 0x1f80 = 0x0900 then .ok .padstep1
  else if seq &&& 0x1f80 = 0x0a00 then .ok .padstep2
  else .error (.noSequencerRow seq)

/-! ## Both formats -/

/-- A word of the opcode table with its format (R80, R84). -/
inductive Encoded where
  | cmd12 (cmd : BitVec 12)
  | seq13 (seq : BitVec 13)
  deriving DecidableEq, Repr

/-- The decoder over both formats. -/
def decode : Encoded → Except DecodeError Instr
  | .cmd12 cmd => decodeCmd cmd
  | .seq13 seq => decodeSeq seq

/-- The instruction of a word as spec/opcode_table.json numbers it. The table does not say which of its
two formats a bare number is in: a legal command word is a command, any other number is read as SEQ13.
DESIGN CHOICE, assumption log 11. -/
def decodeTableWord (nbits w : Nat) : Option Instr :=
  let v := w % 2 ^ nbits
  if v < 2 ^ 12 && legalCmd (BitVec.ofNat 12 v) then (decodeCmd (BitVec.ofNat 12 v)).toOption
  else if v < 2 ^ 13 then (decodeSeq (BitVec.ofNat 13 v)).toOption
  else none

/-! ## The encoder -/

/-- The command word `{op, imm}` (R80). -/
def cmdWord (op : BitVec 4) (imm : Byte) : BitVec 12 := op ++ imm

/-- The word of an instruction, from the tables of R81 and R85. In a SEQ13 word the bits that are not
looked at are written 0 (assumption log 12). -/
def encode : Instr → Encoded
  | .init => .cmd12 (cmdWord 0x1 0x00)
  | .absorb b => .cmd12 (cmdWord 0x2 b)
  | .final => .cmd12 (cmdWord 0x3 0x00)
  | .rdhex k => .cmd12 (cmdWord 0x4 k)
  | .rddig j => .cmd12 (cmdWord 0x5 j)
  | .rdstat => .cmd12 (cmdWord 0x6 0x00)
  | .roundF => .seq13 0x0080
  | .roundG => .seq13 0x0090
  | .roundH => .seq13 0x00a0
  | .roundI => .seq13 0x00b0
  | .feedfwd => .seq13 0x00c0
  | .padstep0 => .seq13 0x0800
  | .padstep1 => .seq13 0x0900
  | .padstep2 => .seq13 0x0a00

end Sys2Proof
end

