-- ==== Sys2Proof/Config.lean ====
section
/-! DEFINITION. The values the spec leaves open, as constants without a body: no proof can see them. -/

namespace Sys2Proof

/-- The registers whose value after reset is unspecified (10_state.md R37, 70_reset_and_hazards.md R230). -/
structure Datapath where
  H : Quad
  w : Quad
  M : Block
  bitlen : Word
  deriving DecidableEq, Repr, Inhabited

/-- `RESET_DATAPATH` (R5, D15, U2): the datapath after the reset that takes draw number `n`. "A model
treats the unspecified values as an argument or a draw and never as zero" (R230). Assumption log 2. -/
opaque Config.resetDatapath (n : Nat) : Datapath

/-- Whether the registers take their reset values in the step with draw number `n`, one of those in which the
reset input is applied: R230 states them for when reset is released and leaves open whether reset is synchronous,
so before that each such step may leave them alone or reset them. Assumption log 6. -/
opaque Config.resetTakesEffect (n : Nat) : Bool

end Sys2Proof
end

