-- ==== Sys2Proof/Machine/State.lean ====
section
/-! DEFINITION. The state of one md5_engine (10_state.md R20), its ports (92_eei_decisions.md D3), and the
state after reset (10_state.md R37, 70_reset_and_hazards.md R230). -/

namespace Sys2Proof.Machine

/-- What the HOST does at the ports, one move at a time (R6, R230, R236). -/
inductive HostMove where
  /-- `cmd_valid` = 1 with this word on `cmd[11:0]`, kept until it is accepted (R32, R234). -/
  | cmd (word : BitVec 12)
  /-- `cmd_valid` = 0: the host sends nothing (R87, R236). -/
  | pause
  /-- The reset input is applied (R230). -/
  | applyReset
  /-- The reset input is released (R230). -/
  | releaseReset
  deriving DecidableEq, Repr

/-- The state. The first ten fields are R20's complete list, under its names (`A` to `D` are `H.a` to
`H.d`, `a` to `d` are `w.a` to `w.d`); `rst` and `rsp` are ports of D3; `port` and `draws` are the
model's own. -/
structure State where
  /-- Chaining state `A`, `B`, `C`, `D` (R21). -/
  H : Quad
  /-- Working variables `a`, `b`, `c`, `d` (R23). -/
  w : Quad
  /-- Block buffer, space BUF (R24, R51). -/
  M : Block
  /-- Message length in bits, modulo 2^32 (R25). -/
  bitlen : Word
  /-- Sticky: `bitlen` has wrapped (R26). -/
  lenovf : Bool
  /-- R27. -/
  phase : Phase
  /-- Progress of finalisation (R28). -/
  fst : FinStage
  /-- A compression is in progress (R29). -/
  run : Bool
  /-- Step counter of the compression, 0 to 64 (R29). -/
  i : BitVec 7
  /-- Cause of the latched fault (R30). -/
  fcode : FaultCode
  /-- Level of the reset input: applied (R230, R32). -/
  rst : Bool
  /-- Response port in the step just taken: `rsp_valid` and `rsp` (R34). Assumption log 4. -/
  rsp : Option Byte
  /-- What the HOST does next, oldest first. Assumption log 1. -/
  port : List HostMove
  /-- How many free values of Config have been drawn. Assumption log 3. -/
  draws : Nat
  deriving DecidableEq, Repr

/-- Why the machine stops with a fault: it never does. The faults of 60_exceptions.md are latched in
`fcode` and `phase` and the engine goes on (R204, R206), and engine steps never fault (R201), so this type
has no constructor. Safe: there is nothing to raise. Assumption log 13. -/
inductive Fault where
  deriving DecidableEq, Repr

/-- Why the model gives a step no meaning. -/
inductive Refusal where
  /-- Raised by `exec` for an instruction the model does not have yet; none is left. Safe. -/
  | notModelled (mnemonic : String)
  /-- Raised by `exec` for an instruction called in a state in which its rule's "Enabled when" does not
  hold (R6, R85): a command while `cmd_ready` = 0 (R236 "never ... a command transferred while
  `cmd_ready = 0`"), an engine step whose SEQ13 row does not match. `step` never raises it. Safe.
  Assumption log 10. -/
  | notEnabled
  /-- Raised by the sequencer when `cmd_ready` = 0 and no row of R85 matches, that is `run` = 1 with `i`
  above 64, a code never produced (R29, U7: "refuse (no rule applies)"). Safe. Assumption log 9. -/
  | noRule
  deriving DecidableEq, Repr

/-- The state when reset is released, for the datapath `dp` that RESET_DATAPATH stands for (R37, R230). -/
def State.resetWith (dp : Datapath) : State where
  H := dp.H
  w := dp.w
  M := dp.M
  bitlen := dp.bitlen
  lenovf := false
  phase := .idle
  fst := .terminatorPlaced
  run := false
  i := 0
  fcode := .none
  rst := false
  rsp := none
  port := []
  draws := 1

/-- The machine right after reset (R37): the datapath is draw 0 of RESET_DATAPATH, a free value
(assumption log 2), and the host has not yet done anything (assumption log 1). -/
def State.reset : State := State.resetWith (Config.resetDatapath 0)

end Sys2Proof.Machine
end

