-- ==== Sys2Proof/Machine/Operands.lean ====
section
/-! DEFINITION. Operand and index forms: bit fields, byte lanes, the byte and word views of BUF, and the
words of the chaining state by number (20_memory.md R52, R54, R62, R63; 10_state.md R25, R29). -/

namespace Sys2Proof.Machine

/-- The fill pointer `p = bitlen[8:3]` (R25). -/
def fillPointer (bitlen : Word) : BitVec 6 := bitlen.extractLsb' 3 6

/-- The round index `i[5:0]` (R29). -/
def roundIndex (i : BitVec 7) : BitVec 6 := i.extractLsb' 0 6

/-- `i[5:4]`, the group of sixteen rounds that a round index falls into (R29, R131). -/
def quartile (i : BitVec 6) : BitVec 2 := i.extractLsb' 4 2

/-- `k = imm[4:0]` of RDHEX (R82). -/
def hexIndex (imm : Byte) : BitVec 5 := imm.extractLsb' 0 5

/-- `j = imm[3:0]` of RDDIG (R82). -/
def digIndex (imm : Byte) : BitVec 4 := imm.extractLsb' 0 4

/-- Byte `n mod 4` of a word, counted from the least significant: bits `8*(n mod 4)+7 : 8*(n mod 4)`
(R52, R55). -/
def byteOfWord (x : Word) (n : Nat) : Byte := x.extractLsb' (8 * (n % 4)) 8

/-- The byte `v` moved to byte lane `n mod 4` of a word: `zext_32(v) << (8 * (n mod 4))` (R53). -/
def laneOfByte (v : Byte) (n : Nat) : Word := v.zeroExtend 32 <<< (8 * (n % 4))

/-- The word view of BUF: `M[g]` (R54). -/
def bufWord (M : Block) (g : Fin 16) : Word := M[g]

/-- The byte view of BUF: byte `q` is byte `q mod 4` of word `q div 4` (R52). -/
def bufByte (M : Block) (q : BitVec 6) : Byte :=
  byteOfWord (M[q.toNat / 4]'(by have := q.isLt; omega)) q.toNat

/-- `H[0]` to `H[3]`: the four words by number (R12). -/
def quadWord (x : Quad) (n : Nat) : Word :=
  match n with
  | 0 => x.a
  | 1 => x.b
  | 2 => x.c
  | _ => x.d

end Sys2Proof.Machine
end

