-- ==== Sys2Proof/Machine/Flags.lean ====
section
/-! DEFINITION. The one flag, the status byte, the sequencer word and the outputs that are functions of the
state (10_state.md R26, R31 to R33; 30_encoding.md R84; 44_system.md R185). -/

namespace Sys2Proof.Machine

/-- `lenovf` after an accepted ABSORB: set when the old `bitlen` is 0xfffffff8, else kept (R26, R112). -/
def lenovfAfterAbsorb (bitlen : Word) (lenovf : Bool) : Bool :=
  if bitlen = 0xfffffff8 then true else lenovf

/-- STATUS: `{0, fcode[2:0], lenovf, phase[2:0]}` (R31, R185). -/
def statusByte (s : State) : Byte :=
  0#1 ++ s.fcode.code ++ BitVec.ofBool s.lenovf ++ s.phase.code

/-- SEQ13: `{phase[2:0], fst[1:0], run, i[6:0]}` (R84). -/
def seqWord (s : State) : BitVec 13 :=
  s.phase.code ++ s.fst.code ++ BitVec.ofBool s.run ++ s.i

/-- The output `cmd_ready` (R32). -/
def cmdReady (s : State) : Bool := !s.run && s.phase != .final && !s.rst

/-- The output `done` (R33). -/
def doneOut (s : State) : Bool := s.phase == .done

/-- The output `fault` (R33). -/
def faultOut (s : State) : Bool := s.phase == .fault

/-- The row of R85 that the sequencer fields match is the one of the engine step `i`, and reset is not
applied (R6, R85). -/
def stepEnabled (i : Instr) (s : State) : Bool :=
  !s.rst && (match decodeSeq (seqWord s) with
    | .ok j => j == i
    | .error _ => false)

end Sys2Proof.Machine
end

