-- ==== Sys2Proof/Machine/Tables.lean ====
section
/-! DEFINITION. The constants of the hardware: the initial chaining value (10_state.md R22) and the tables
K and S (20_memory.md R59 to R61). -/

namespace Sys2Proof.Machine

/-- The initial chaining value (R22, R5 `IV`). -/
def iv : Quad where
  a := 0x67452301
  b := 0xefcdab89
  c := 0x98badcfe
  d := 0x10325476

/-- KROM, entries 0 to 15 (R60). -/
def krom0 : Vector Word 16 := #v[
  0xd76aa478, 0xe8c7b756, 0x242070db, 0xc1bdceee,
  0xf57c0faf, 0x4787c62a, 0xa8304613, 0xfd469501,
  0x698098d8, 0x8b44f7af, 0xffff5bb1, 0x895cd7be,
  0x6b901122, 0xfd987193, 0xa679438e, 0x49b40821]

/-- KROM, entries 16 to 31 (R60). -/
def krom1 : Vector Word 16 := #v[
  0xf61e2562, 0xc040b340, 0x265e5a51, 0xe9b6c7aa,
  0xd62f105d, 0x02441453, 0xd8a1e681, 0xe7d3fbc8,
  0x21e1cde6, 0xc33707d6, 0xf4d50d87, 0x455a14ed,
  0xa9e3e905, 0xfcefa3f8, 0x676f02d9, 0x8d2a4c8a]

/-- KROM, entries 32 to 47 (R60). -/
def krom2 : Vector Word 16 := #v[
  0xfffa3942, 0x8771f681, 0x6d9d6122, 0xfde5380c,
  0xa4beea44, 0x4bdecfa9, 0xf6bb4b60, 0xbebfbc70,
  0x289b7ec6, 0xeaa127fa, 0xd4ef3085, 0x04881d05,
  0xd9d4d039, 0xe6db99e5, 0x1fa27cf8, 0xc4ac5665]

/-- KROM, entries 48 to 63 (R60). -/
def krom3 : Vector Word 16 := #v[
  0xf4292244, 0x432aff97, 0xab9423a7, 0xfc93a039,
  0x655b59c3, 0x8f0ccc92, 0xffeff47d, 0x85845dd1,
  0x6fa87e4f, 0xfe2ce6e0, 0xa3014314, 0x4e0811a1,
  0xf7537e82, 0xbd3af235, 0x2ad7d2bb, 0xeb86d391]

/-- The space KROM: `K[0..63]` (R50, R60). -/
def krom : Vector Word 64 := krom0 ++ krom1 ++ krom2 ++ krom3

/-- The four rotate amounts of one group of sixteen rounds, cycling by `i mod 4` (R61). -/
def srom16 (s0 s1 s2 s3 : BitVec 5) : Vector (BitVec 5) 16 :=
  #v[s0, s1, s2, s3, s0, s1, s2, s3, s0, s1, s2, s3, s0, s1, s2, s3]

/-- The space SROM: `S[0..63]` (R50, R61). The values are marked in the spec as supplied from general
knowledge (G1). -/
def srom : Vector (BitVec 5) 64 :=
  srom16 7 12 17 22 ++ srom16 5 9 14 20 ++ srom16 4 11 16 23 ++ srom16 6 10 15 21

/-- `K[i]` (R59). -/
def kAt (i : BitVec 6) : Word := krom[i.toNat]'i.isLt

/-- `S[i]` (R59). -/
def sAt (i : BitVec 6) : BitVec 5 := srom[i.toNat]'i.isLt

end Sys2Proof.Machine
end

