-- ==== Sys2Proof/Machine/Ops.lean ====
section
/-! DEFINITION. The shared operations: writes of BUF (20_memory.md R53), the response port (10_state.md
R34), fault entry (60_exceptions.md R204), the acceptance of a command (30_encoding.md R88), the taking of
an engine step (R85), LOADW (41_compressor.md R133) and reset (70_reset_and_hazards.md R230). -/

namespace Sys2Proof.Machine

/-! ## BUF -/

/-- `BufOrByte(q, v)` (R53). -/
def bufOrByte (q : BitVec 6) (v : Byte) (M : Block) : Block :=
  have h : q.toNat / 4 < 16 := by have := q.isLt; omega
  M.set (q.toNat / 4) (M[q.toNat / 4] ||| laneOfByte v q.toNat)

/-- The two word writes of PADSTEP: `M[14] <- bitlen`, `M[15] <- 0` (R53, R114, R115). -/
def storeLength (bitlen : Word) (M : Block) : Block :=
  (M.set 14 bitlen).set 15 0

/-- `BufClear` (R53). -/
def bufClear : Block := Vector.replicate 16 0

/-! ## The response port -/

/-- `respond v` (R12, R34). -/
def respond (v : Byte) (s : State) : State := { s with rsp := some v }

/-- No response in this step: `rsp_valid` = 0 (R34). -/
def noResponse (s : State) : State := { s with rsp := none }

/-- The response of a command that is not executed: 0x00 if its `op` is one that responds, else none
(R83, R204, R206). -/
def respondZeroIf (responds : Bool) (s : State) : State :=
  if responds then respond 0x00 s else noResponse s

/-! ## Fault entry. There is no return from a fault but reset (R207). -/

/-- `raise Fault(code)` (R204): nothing but `fcode`, `phase` and the response is written. -/
def raiseFault (code : FaultCode) (responds : Bool) (s : State) : State :=
  respondZeroIf responds { s with fcode := code, phase := .fault }

/-! ## Accepting a command -/

/-- The order of checks for an accepted word other than RDSTAT (R88): in phase FAULT it has no effect,
then legality, then the phase, then its own effect. A word is accepted only with `cmd_ready` = 1 (R32). -/
def acceptCommand (responds legal : Bool) (allowed : Phase → Bool) (effect : State → State) (s : State) :
    Host.Outcome State Fault Refusal :=
  if !cmdReady s then .refused .notEnabled
  else if s.phase == .fault then .next (respondZeroIf responds s)
  else if !legal then .next (raiseFault .illegalCmd responds s)
  else if !allowed s.phase then .next (raiseFault .seqErr responds s)
  else .next (effect s)

/-- A reserved command word is accepted: ILLEGAL_CMD, or no effect in phase FAULT (R86, R88). -/
def acceptReserved (cmd : BitVec 12) (s : State) : Host.Outcome State Fault Refusal :=
  acceptCommand (respondsOp (opOf cmd)) false (fun _ => false) noResponse s

/-! ## Engine steps -/

/-- An engine step is taken in a state that matches its row of R85; it raises no fault and gives no
response (R34, R201). -/
def takeEngineStep (i : Instr) (effect : State → State) (s : State) : Host.Outcome State Fault Refusal :=
  if stepEnabled i s then .next (noResponse (effect s)) else .refused .notEnabled

/-- LOADW (R133): dispatch the block that BUF holds. -/
def loadw (s : State) : State := { s with w := s.H, i := 0, run := true }

/-! ## Reset -/

/-- One step with the reset input applied, its application among them (R230, R232): no command, no engine step
and no response. The registers keep their values or take the reset values of R37, whichever is a free value
(assumption log 6); so `phase` keeps its value or goes to IDLE (R154). -/
def underReset (s : State) : State :=
  if Config.resetTakesEffect s.draws then
    { State.resetWith (Config.resetDatapath s.draws) with rst := true, port := s.port, draws := s.draws + 1 }
  else { s with rst := true, rsp := none, draws := s.draws + 1 }

/-- The reset input is released: the reset state of R230, with a fresh draw of RESET_DATAPATH. Nothing
changes if reset was not applied. -/
def releaseReset (s : State) : State :=
  if s.rst then
    { State.resetWith (Config.resetDatapath s.draws) with port := s.port, draws := s.draws + 1 }
  else noResponse s

end Sys2Proof.Machine
end

