-- ==== Sys2Proof/Machine/Compressor.lean ====
section
/-! DEFINITION. md5_compressor (41_compressor.md): ROUND_F, ROUND_G, ROUND_H, ROUND_I, FEEDFWD. -/

namespace Sys2Proof.Machine

/-- `rotl32(x, s)` (R9). The amounts used are 4 to 23 (R61). -/
def rotl32 (x : Word) (s : Nat) : Word := (x <<< s) ||| (x >>> (32 - s))

/-! ## The four nonlinear functions (R131) -/

def nonlinF (b c d : Word) : Word := (b &&& c) ||| (~~~b &&& d)
def nonlinG (b c d : Word) : Word := (d &&& b) ||| (~~~d &&& c)
def nonlinH (b c d : Word) : Word := b ^^^ c ^^^ d
def nonlinI (b c d : Word) : Word := c ^^^ (b ||| ~~~d)

/-! ## The four message-word indices (R132); `mod 16` in the first changes nothing for `i` below 16 -/

def indexF (i : BitVec 6) : Fin 16 := Fin.ofNat 16 i.toNat
def indexG (i : BitVec 6) : Fin 16 := Fin.ofNat 16 (5 * i.toNat + 1)
def indexH (i : BitVec 6) : Fin 16 := Fin.ofNat 16 (3 * i.toNat + 5)
def indexI (i : BitVec 6) : Fin 16 := Fin.ofNat 16 (7 * i.toNat)

/-- The arithmetic of one round, for the value `f` of the nonlinear function and the message word `m`
(R134): the new `(a, b, c, d)`. The `x.b +` in the new `b` is marked in the spec as supplied from general
knowledge (C1, G2). -/
def roundCore (i : BitVec 6) (f m : Word) (x : Quad) : Quad where
  a := x.d
  b := x.b + rotl32 (x.a + f + kAt i + m) (sAt i).toNat
  c := x.b
  d := x.c

/-- The effect of a ROUND step: `(a, b, c, d) <- round(i, (a, b, c, d), M)`, `i <- i + 1`, with the
nonlinear function and the index of its group (R135 to R138). -/
def roundStep (nonlin : Word → Word → Word → Word) (index : BitVec 6 → Fin 16) (s : State) : State :=
  let i := roundIndex s.i
  { s with
    w := roundCore i (nonlin s.w.b s.w.c s.w.d) (bufWord s.M (index i)) s.w
    i := s.i + 1 }

/-- The word-by-word sum `x +32 y` of two groups of four words (R139, R140). -/
def quadAdd (x y : Quad) : Quad where
  a := x.a + y.a
  b := x.b + y.b
  c := x.c + y.c
  d := x.d + y.d

/-- The effect of FEEDFWD (R139). -/
def feedForward (s : State) : State :=
  { s with H := quadAdd s.H s.w, M := bufClear, run := false }

/-- ROUND_F (R135). -/
def execRoundF (s : State) : Host.Outcome State Fault Refusal :=
  takeEngineStep .roundF (roundStep nonlinF indexF) s

/-- ROUND_G (R136). -/
def execRoundG (s : State) : Host.Outcome State Fault Refusal :=
  takeEngineStep .roundG (roundStep nonlinG indexG) s

/-- ROUND_H (R137). -/
def execRoundH (s : State) : Host.Outcome State Fault Refusal :=
  takeEngineStep .roundH (roundStep nonlinH indexH) s

/-- ROUND_I (R138). -/
def execRoundI (s : State) : Host.Outcome State Fault Refusal :=
  takeEngineStep .roundI (roundStep nonlinI indexI) s

/-- FEEDFWD (R139). -/
def execFeedfwd (s : State) : Host.Outcome State Fault Refusal :=
  takeEngineStep .feedfwd feedForward s

end Sys2Proof.Machine
end

