-- ==== Sys2Proof/Machine/Formatter.lean ====
section
/-! DEFINITION. digest_formatter (43_formatter.md): RDDIG, RDHEX. -/

namespace Sys2Proof.Machine

/-- `digest_byte(j)` (R170), the space DIG (R62). -/
def digestByte (x : Quad) (j : BitVec 4) : Byte :=
  byteOfWord (quadWord x (j.toNat / 4)) j.toNat

/-- The character code of a nibble, `0` to `9` and `a` to `f` (R171). -/
def hexDigit (n : BitVec 4) : Byte :=
  if n ≤ 9 then 0x30 + n.zeroExtend 8 else 0x61 + (n.zeroExtend 8 - 10)

/-- The nibble of a digest byte that character `k` shows: the high one when `k` is even (R63, R171). -/
def hexNibble (k : BitVec 5) (y : Byte) : BitVec 4 :=
  if k.toNat % 2 = 0 then y.extractLsb' 4 4 else y.extractLsb' 0 4

/-- `hex_char(k)` (R171), the space HEX (R63). -/
def hexChar (x : Quad) (k : BitVec 5) : Byte :=
  hexDigit (hexNibble k (digestByte x (k.extractLsb' 1 4)))

/-- RDDIG (R172); legal in phase DONE only (R203); `imm` above 0x0f is illegal (R202). -/
def execRddig (j : Byte) (s : State) : Host.Outcome State Fault Refusal :=
  acceptCommand true (decide (j ≤ 0x0f)) (fun p => p == .done)
    (fun s => respond (digestByte s.H (digIndex j)) s) s

/-- RDHEX (R173); legal in phase DONE only (R203); `imm` above 0x1f is illegal (R202). -/
def execRdhex (k : Byte) (s : State) : Host.Outcome State Fault Refusal :=
  acceptCommand true (decide (k ≤ 0x1f)) (fun p => p == .done)
    (fun s => respond (hexChar s.H (hexIndex k)) s) s

end Sys2Proof.Machine
end

