-- ==== Sys2Proof/Machine/Padder.lean ====
section
/-! DEFINITION. message_padder (40_padder.md): ABSORB, FINAL, PADSTEP0, PADSTEP1, PADSTEP2. -/

namespace Sys2Proof.Machine

/-- The effect of ABSORB in phase ABSORB (R112). -/
def absorbByte (b : Byte) (s : State) : State :=
  let p := fillPointer s.bitlen
  let s1 : State :=
    { s with
      M := bufOrByte p b s.M
      bitlen := s.bitlen + 8
      lenovf := lenovfAfterAbsorb s.bitlen s.lenovf
      rsp := none }
  if p = 63 then loadw s1 else s1

/-- The effect of FINAL in phase ABSORB (R113). -/
def placeTerminator (s : State) : State :=
  { s with
    M := bufOrByte (fillPointer s.bitlen) 0x80 s.M
    phase := .final
    fst := .terminatorPlaced
    rsp := none }

/-- Write the length words, dispatch the block, `fst <- 2` (R114 else branch, R115). -/
def dispatchLengthBlock (s : State) : State :=
  loadw { s with M := storeLength s.bitlen s.M, fst := .lengthDispatched }

/-- The effect of PADSTEP0 (R114). -/
def padFirst (s : State) : State :=
  if fillPointer s.bitlen ≥ 56 then loadw { s with fst := .spillDispatched }
  else dispatchLengthBlock s

/-- The effect of PADSTEP2 (R116). -/
def padLast (s : State) : State :=
  { s with phase := .done, fst := .terminatorPlaced }

/-- ABSORB (R112); legal in phase ABSORB only (R203). -/
def execAbsorb (b : Byte) (s : State) : Host.Outcome State Fault Refusal :=
  acceptCommand false true (fun p => p == .absorb) (absorbByte b) s

/-- FINAL (R113); legal in phase ABSORB only (R203). -/
def execFinal (s : State) : Host.Outcome State Fault Refusal :=
  acceptCommand false true (fun p => p == .absorb) placeTerminator s

/-- PADSTEP0 (R114). -/
def execPadstep0 (s : State) : Host.Outcome State Fault Refusal :=
  takeEngineStep .padstep0 padFirst s

/-- PADSTEP1 (R115). -/
def execPadstep1 (s : State) : Host.Outcome State Fault Refusal :=
  takeEngineStep .padstep1 dispatchLengthBlock s

/-- PADSTEP2 (R116). -/
def execPadstep2 (s : State) : Host.Outcome State Fault Refusal :=
  takeEngineStep .padstep2 padLast s

end Sys2Proof.Machine
end

