-- ==== Sys2Proof/Machine/Scheduler.lean ====
section
/-! DEFINITION. block_scheduler (42_scheduler.md): INIT. -/

namespace Sys2Proof.Machine

/-- The effect of INIT in phases IDLE and DONE (R151). It does not write `a` to `d`, `i` or `run`. -/
def startMessage (s : State) : State :=
  { s with
    H := iv
    M := bufClear
    bitlen := 0
    lenovf := false
    fst := .terminatorPlaced
    phase := .absorb
    rsp := none }

/-- INIT (R151); legal in phases IDLE and DONE (R203). -/
def execInit (s : State) : Host.Outcome State Fault Refusal :=
  acceptCommand false true (fun p => p == .idle || p == .done) startMessage s

end Sys2Proof.Machine
end

