-- ==== Sys2Proof/Machine/System.lean ====
section
/-! DEFINITION. System operations (44_system.md): RDSTAT. RESET is the reset input, in Ops. -/

namespace Sys2Proof.Machine

/-- RDSTAT (R185): legal in every phase, FAULT included, and checked before all else (R88). -/
def execRdstat (s : State) : Host.Outcome State Fault Refusal :=
  if !cmdReady s then .refused .notEnabled else .next (respond (statusByte s) s)

end Sys2Proof.Machine
end

