-- ==== Sys2Proof/Machine/Dispatch.lean ====
section
/-! DEFINITION. One arm per instruction. -/

namespace Sys2Proof.Machine

/-- The meaning of every instruction. -/
def exec (i : Instr) (s : State) : Host.Outcome State Fault Refusal :=
  match i with
  | .init => Sys2Proof.Machine.execInit s
  | .absorb b => Sys2Proof.Machine.execAbsorb b s
  | .final => Sys2Proof.Machine.execFinal s
  | .rdhex k => Sys2Proof.Machine.execRdhex k s
  | .rddig j => Sys2Proof.Machine.execRddig j s
  | .rdstat => Sys2Proof.Machine.execRdstat s
  | .roundF => Sys2Proof.Machine.execRoundF s
  | .roundG => Sys2Proof.Machine.execRoundG s
  | .roundH => Sys2Proof.Machine.execRoundH s
  | .roundI => Sys2Proof.Machine.execRoundI s
  | .feedfwd => Sys2Proof.Machine.execFeedfwd s
  | .padstep0 => Sys2Proof.Machine.execPadstep0 s
  | .padstep1 => Sys2Proof.Machine.execPadstep1 s
  | .padstep2 => Sys2Proof.Machine.execPadstep2 s

end Sys2Proof.Machine
end

