-- ==== Sys2Proof/Machine/Sequencer.lean ====
section
/-! DEFINITION. What one step does around an instruction: the command port and its handshake (10_state.md
R32, 30_encoding.md R88), the choice of the engine step (42_scheduler.md R155), the reset input
(70_reset_and_hazards.md R230). -/

namespace Sys2Proof.Machine

/-- A word is transferred on the command port (R80, R88). -/
def acceptWord (cmd : BitVec 12) (s : State) : Host.Outcome State Fault Refusal :=
  match decodeCmd cmd with
  | .ok i => exec i s
  | .error _ => acceptReserved cmd s

/-- The ENGINE takes the step the sequencer fields select (R84, R85, R155). -/
def engineStep (s : State) : Host.Outcome State Fault Refusal :=
  match decodeSeq (seqWord s) with
  | .ok i => exec i s
  | .error _ => .refused .noRule

/-- No command is transferred: under reset nothing but reset happens (R230, R232); the ENGINE steps when
`cmd_ready` = 0 (R6); else the state is held, with no response (R155; assumption log 5). -/
def withoutCommand (s : State) : Host.Outcome State Fault Refusal :=
  if s.rst then .next (underReset s)
  else if cmdReady s then .next (noResponse s)
  else engineStep s

/-- One step: the HOST's next move and, unless it is a transfer or a reset, the ENGINE's. A command
presented while `cmd_ready` = 0 stays at the port (R32). -/
def takeStep (s : State) : Host.Outcome State Fault Refusal :=
  match s.port with
  | [] => withoutCommand s
  | .pause :: rest => withoutCommand { s with port := rest }
  | .applyReset :: rest => .next (underReset { s with port := rest })
  | .releaseReset :: rest => .next (releaseReset { s with port := rest })
  | .cmd word :: rest =>
      if cmdReady s then acceptWord word { s with port := rest } else withoutCommand s

/-- `s` with the command word presented next and the engine ready to accept it. -/
def placeCommand (cmd : BitVec 12) (s : State) : State :=
  { s with
    rst := false
    run := false
    phase := if s.phase = .final then .absorb else s.phase
    port := .cmd cmd :: s.port }

/-- `s` with the sequencer fields of a SEQ13 word and the HOST pausing for one step. Codes that are never
produced (R27, R28) are read as code 0. -/
def placeSeq (seq : BitVec 13) (s : State) : State :=
  { s with
    rst := false
    phase := (Phase.ofCode (seq.extractLsb' 10 3)).getD .idle
    fst := (FinStage.ofCode (seq.extractLsb' 8 2)).getD .terminatorPlaced
    run := seq.getLsbD 7
    i := seq.extractLsb' 0 7
    port := .pause :: s.port }

/-- The word of decodeTableWord placed where the next step runs it: a command at the port, a SEQ13 word in
the sequencer fields. Any other number is presented as a (reserved) command word. -/
def placeTableWord (nbits w : Nat) (s : State) : State :=
  let v := w % 2 ^ nbits
  if v < 2 ^ 12 && legalCmd (BitVec.ofNat 12 v) then placeCommand (BitVec.ofNat 12 v) s
  else if v < 2 ^ 13 && (decodeSeq (BitVec.ofNat 13 v)).toBool then placeSeq (BitVec.ofNat 13 v) s
  else placeCommand (BitVec.ofNat 12 v) s

end Sys2Proof.Machine
end

