-- ==== Sys2Proof/Machine/Step.lean ====
section
/-! DEFINITION. The step function, and the placing of one instruction for the next step. -/

namespace Sys2Proof.Machine

/-- One atomic step of the machine: of the HOST or of the ENGINE (00_scope.md R6). -/
def step (s : State) : Host.Outcome State Fault Refusal := takeStep s

/-- `s` with the instruction of the table word `w` placed so that the very next step runs it (assumption
log 1). -/
def State.withFetchWord (s : State) (nbits w : Nat) : State := placeTableWord nbits w s

end Sys2Proof.Machine
end

