-- ==== Sys2Proof/Machine/Reference.lean ====
section
/-! DEFINITION. The reference functions of the spec, pure and apart from the machine: F, g, round and
compress (41_compressor.md R131, R132, R134, R140), the padded message PM (40_padder.md R110), md5_state,
md5_digest and md5_hex (42_scheduler.md R156). No step of the machine uses them. -/

namespace Sys2Proof.Machine

/-! ## One block -/

/-- `F(i, b, c, d)`, selected by `i[5:4]` (R131). -/
def nonlinear (i : BitVec 6) (b c d : Word) : Word :=
  match (quartile i).toNat with
  | 0 => (b &&& c) ||| (~~~b &&& d)
  | 1 => (d &&& b) ||| (~~~d &&& c)
  | 2 => b ^^^ c ^^^ d
  | _ => c ^^^ (b ||| ~~~d)

/-- `g(i)`, selected by `i[5:4]` (R132). -/
def messageIndex (i : BitVec 6) : Fin 16 :=
  match (quartile i).toNat with
  | 0 => Fin.ofNat 16 i.toNat
  | 1 => Fin.ofNat 16 (5 * i.toNat + 1)
  | 2 => Fin.ofNat 16 (3 * i.toNat + 5)
  | _ => Fin.ofNat 16 (7 * i.toNat)

/-- `round(i, (a, b, c, d), M)` (R134). -/
def roundFn (i : BitVec 6) (x : Quad) (M : Block) : Quad :=
  let temp := x.a + nonlinear i x.b x.c x.d + kAt i + M[messageIndex i]
  { a := x.d, b := x.b + rotl32 temp (sAt i).toNat, c := x.b, d := x.c }

/-- The first `n` rounds, in increasing `i` from 0 (R140). -/
def roundsFn (M : Block) : Nat → Quad → Quad
  | 0, x => x
  | n + 1, x => roundFn (BitVec.ofNat 6 n) (roundsFn M n x) M

/-- `compress(Hin, M)` (R140). -/
def compress (x : Quad) (M : Block) : Quad := quadAdd x (roundsFn M 64 x)

/-! ## The padded message -/

/-- `NB`, the number of blocks for a message of `L` bytes (R110). -/
def blockCount (L : Nat) : Nat := (L + 8) / 64 + 1

/-- OR a byte into byte position `n` of a word buffer (R110 steps 2 and 3). -/
def orByteAt (buf : List Word) (n : Nat) (v : Byte) : List Word :=
  buf.modify (n / 4) (fun x => x ||| (v.zeroExtend 32 <<< (8 * (n % 4))))

/-- R110 step 2 from byte position `n` on. -/
def orBytesFrom (n : Nat) : List Byte → List Word → List Word
  | [], buf => buf
  | v :: rest, buf => orBytesFrom (n + 1) rest (orByteAt buf n v)

/-- `PM(msg)` (R110): zero buffer, message bytes, terminator, length word. -/
def paddedMessage (msg : List Byte) : List Word :=
  let L := msg.length
  let NW := 16 * blockCount L
  let filled := orBytesFrom 0 msg (List.replicate NW 0)
  (orByteAt filled L 0x80).set (NW - 2) (BitVec.ofNat 32 (8 * L))

/-- The slice `PM(msg)[16n .. 16n+15]` as a block (R117, R156). -/
def messageBlock (msg : List Byte) (n : Nat) : Block :=
  Vector.ofFn fun j => (paddedMessage msg).getD (16 * n + j.val) 0

/-! ## The digest -/

/-- The chaining value after the first `n` blocks of `PM(msg)` (R156, R157). -/
def chainValue (msg : List Byte) : Nat → Quad
  | 0 => iv
  | n + 1 => compress (chainValue msg n) (messageBlock msg n)

/-- `md5_state(msg)` (R156). -/
def md5State (msg : List Byte) : Quad := chainValue msg (blockCount msg.length)

/-- `md5_digest(msg)` (R156): the 16 bytes of DIG. -/
def md5Digest (msg : List Byte) : List Byte :=
  List.ofFn fun j : Fin 16 => digestByte (md5State msg) (BitVec.ofFin j)

/-- `md5_hex(msg)` (R156): the 32 characters of HEX. -/
def md5Hex (msg : List Byte) : List Byte :=
  List.ofFn fun k : Fin 32 => hexChar (md5State msg) (BitVec.ofFin k)

end Sys2Proof.Machine
end

