-- ==== Sys2Proof/Machine/Script.lean ====
section
/-! DEFINITION. Command scripts as lists of the HOST's moves: the pseudo-commands of 30_encoding.md R94 and the
transaction of 42_scheduler.md R158. A command line waits for `cmd_ready` by itself (R93): a move that is not
accepted stays at the port. -/

namespace Sys2Proof.Machine

/-- One command line: the word of R81. -/
def line (op : BitVec 4) (imm : Byte) : HostMove := .cmd (cmdWord op imm)

/-- The characters a text of a pseudo-command may hold: 0x20 to 0x7e other than the quote, 0x22 (R94). -/
def textAdmits (c : Char) : Bool := 0x20 ≤ c.toNat && c.toNat ≤ 0x7e && c.toNat != 0x22

/-- The bytes of a text, one a character (R94, D25); none where a character is not admitted (U15: "the
pseudo-command is not defined for it"). -/
def textBytes (text : String) : Option (List Byte) :=
  if text.toList.all textAdmits then some (text.toList.map fun c => BitVec.ofNat 8 c.toNat) else none

/-- One ABSORB a byte, in order (R94 `ABSORBS`, R158). -/
def absorbBytes (msg : List Byte) : List HostMove := msg.map (line 0x2)

/-- `ABSORBS "text"` (R94), where it is defined (U15). -/
def absorbText (text : String) : Option (List HostMove) := (textBytes text).map absorbBytes

/-- `ABSORBN v, n` (R94). -/
def absorbN (v : Byte) (n : Nat) : List HostMove := List.replicate n (line 0x2 v)

/-- `RDHEXALL` (R94). -/
def rdhexAll : List HostMove := (List.range 32).map fun k => line 0x4 (BitVec.ofNat 8 k)

/-- `RDDIGALL` (R94). -/
def rddigAll : List HostMove := (List.range 16).map fun j => line 0x5 (BitVec.ofNat 8 j)

/-- `INIT`, `ABSORB` of every byte of `msg` in order, `FINAL` (R157). -/
def digestScript (msg : List Byte) : List HostMove := line 0x1 0x00 :: (absorbBytes msg ++ [line 0x3 0x00])

/-- `compute_digest(msg)` as a transaction: the digest script, then RDHEXALL (R158; R94 `DIGEST`). -/
def computeDigest (msg : List Byte) : List HostMove := digestScript msg ++ rdhexAll

/-- `DIGEST "text"` (R94), where it is defined (U15). -/
def digestText (text : String) : Option (List HostMove) := (textBytes text).map computeDigest

/-- `RESET`: the reset input applied and released (R94, R230). -/
def resetScript : List HostMove := [.applyReset, .releaseReset]

end Sys2Proof.Machine
end

