-- ==== Sys2Proof/Safety.lean ====
section
/-! DEFINITION. The terms claims are made in: the invariants of reachable states (10_state.md R38), what the
host can observe (R35), which states differ only in what cannot be read, and the states and step counts of one
digest computation (42_scheduler.md R157, R160). -/

namespace Sys2Proof.Machine

/-! ## Invariants -/

/-- R38 (a) to (d), reset applied or not. The ranges of `phase`, `fst` and `fcode` in (a) are in their
types. -/
abbrev Inv (s : State) : Prop :=
  (s.i ≤ 64) ∧
  (s.run = true → s.phase = .absorb ∨ s.phase = .final) ∧
  (s.fcode ≠ .none ↔ s.phase = .fault) ∧
  (s.phase = .absorb ∨ s.phase = .final ∨ s.phase = .done → s.bitlen.extractLsb' 0 3 = 0)

/-- Every byte of BUF from position `n` on is zero. -/
abbrev zeroFrom (M : Block) (n : Nat) : Prop :=
  ∀ q : Fin 64, n ≤ q.val → bufByte M (BitVec.ofFin q) = 0

/-- What BUF, the fill pointer, `fst` and `lenovf` satisfy in every state (the zero part of R38 (e); R24, R26,
R28, R31, R111 (a), R114, R115). -/
abbrev MessageInv (s : State) : Prop :=
  (s.phase = .idle → s.lenovf = false) ∧
  (s.phase = .absorb → s.fst = .terminatorPlaced) ∧
  (s.phase = .absorb → s.run = false → zeroFrom s.M (fillPointer s.bitlen).toNat) ∧
  (s.phase = .absorb → s.run = true → fillPointer s.bitlen = 0) ∧
  (s.phase = .final → s.run = true → s.fst ≠ .terminatorPlaced) ∧
  (s.phase = .final → s.run = false → s.fst = .terminatorPlaced →
    zeroFrom s.M ((fillPointer s.bitlen).toNat + 1)) ∧
  (s.phase = .final → s.run = false → s.fst ≠ .terminatorPlaced → zeroFrom s.M 0) ∧
  (s.phase = .final → s.fst = .spillDispatched → 56 ≤ fillPointer s.bitlen) ∧
  (s.phase = .done → zeroFrom s.M 0)

/-! ## The message of a state -/

/-- The message absorbed since INIT, after a step from `s`, if it was `msg` before (R14, R25): an INIT that
executes begins anew, an ABSORB that executes appends its operand, no other step changes it. -/
def messageAfter (msg : List Byte) (s : State) : List Byte :=
  match s.port with
  | .cmd word :: _ =>
    if cmdReady s = false then msg
    else if word = 0x100 ∧ (s.phase = .idle ∨ s.phase = .done) then []
    else if opOf word = 0x2 ∧ s.phase = .absorb then msg ++ [immOf word]
    else msg
  | .pause :: _ => msg
  | .applyReset :: _ => msg
  | .releaseReset :: _ => msg
  | [] => msg

/-- BUF holds these bytes from byte 0 on, and zeros after them. -/
abbrev holds (M : Block) (bytes : List Byte) : Prop :=
  ∀ q : Fin 64, bufByte M (BitVec.ofFin q) = bytes.getD q 0

/-- The bytes of the message after its last full block (R117). -/
def openBytes (msg : List Byte) : List Byte := msg.drop (64 * (msg.length / 64))

/-- Block `n` of `PM(msg)` is being compressed, `i` rounds are done (R117, R134, R141). -/
structure Compressing (msg : List Byte) (n : Nat) (s : State) : Prop where
  chain : s.H = chainValue msg n
  block : s.M = messageBlock msg n
  rounds : s.w = roundsFn s.M s.i.toNat s.H

/-- What A to D, a to d, BUF, `bitlen` and `lenovf` hold, phase by phase and stage by stage, when `msg` is the
message absorbed since INIT: R38 (e), (f), (g) with R25, R26, R28, R110 to R117. -/
structure Tracks (msg : List Byte) (s : State) : Prop where
  length : s.phase = .absorb ∨ s.phase = .final ∨ s.phase = .done →
    s.bitlen = BitVec.ofNat 32 (8 * msg.length) ∧ s.lenovf = decide (2 ^ 29 ≤ msg.length)
  filling : s.phase = .absorb → s.run = false →
    holds s.M (openBytes msg) ∧ s.H = chainValue msg (msg.length / 64)
  fullBlock : s.phase = .absorb → s.run = true →
    msg ≠ [] ∧ msg.length % 64 = 0 ∧ Compressing msg (msg.length / 64 - 1) s
  terminated : s.phase = .final → s.run = false → s.fst = .terminatorPlaced →
    holds s.M (openBytes msg ++ [0x80]) ∧ s.H = chainValue msg (msg.length / 64)
  running : s.phase = .final → s.run = true → s.fst ≠ .terminatorPlaced
  spillBlock : s.phase = .final → s.run = true → s.fst = .spillDispatched →
    56 ≤ msg.length % 64 ∧ Compressing msg (msg.length / 64) s
  spilled : s.phase = .final → s.run = false → s.fst = .spillDispatched →
    56 ≤ msg.length % 64 ∧ holds s.M [] ∧ s.H = chainValue msg (msg.length / 64 + 1)
  lastBlock : s.phase = .final → s.run = true → s.fst = .lengthDispatched →
    Compressing msg (blockCount msg.length - 1) s
  finished : s.phase = .final → s.run = false → s.fst = .lengthDispatched →
    holds s.M [] ∧ s.H = md5State msg
  digest : s.phase = .done → s.H = md5State msg

/-! ## What the host can observe -/

/-- The outputs the host sees in a state: `cmd_ready`, `done`, `fault`, and the response of the step just
taken (R32 to R35). -/
structure Outputs where
  cmdReady : Bool
  done : Bool
  fault : Bool
  rsp : Option Byte
  deriving DecidableEq, Repr

/-- The outputs in a state. -/
def outputs (s : State) : Outputs where
  cmdReady := cmdReady s
  done := doneOut s
  fault := faultOut s
  rsp := s.rsp

/-- Two states that may differ only in registers nothing can read before they are written: the datapath in
phases IDLE and FAULT, and `a` to `d` while `run` = 0 (R23, R37, U2, U8). While reset is applied the
sequencer state is rewritten at release (R230), so it may differ too, but for the visible `phase`. -/
structure SameButHidden (s t : State) : Prop where
  rst : s.rst = t.rst
  rsp : s.rsp = t.rsp
  port : s.port = t.port
  draws : s.draws = t.draws
  phase : s.phase = t.phase
  control : s.rst = false →
    s.fst = t.fst ∧ s.run = t.run ∧ s.i = t.i ∧ s.fcode = t.fcode ∧ s.lenovf = t.lenovf
  message : s.rst = false → s.phase = .absorb ∨ s.phase = .final ∨ s.phase = .done →
    s.H = t.H ∧ s.M = t.M ∧ s.bitlen = t.bitlen
  working : s.rst = false → s.run = true → s.w = t.w

/-! ## Which engine step is next -/

/-- R155 in its own words: "if `run = 1` and `i <= 63`, the ROUND selected by `i[5:4]`; if `run = 1` and
`i = 64`, FEEDFWD; if `run = 0` (then `phase = FINAL`), PADSTEP0, PADSTEP1 or PADSTEP2 by `fst`". -/
def nextEngineStep (phase : Phase) (fst : FinStage) (run : Bool) (i : BitVec 7) : Option Instr :=
  if run then
    if i < 16 then some .roundF
    else if i < 32 then some .roundG
    else if i < 48 then some .roundH
    else if i < 64 then some .roundI
    else if i = 64 then some .feedfwd
    else none
  else if phase = .final then
    match fst with
    | .terminatorPlaced => some .padstep0
    | .spillDispatched => some .padstep1
    | .lengthDispatched => some .padstep2
  else none

/-- The engine step that the sequencer fields of a state select (R155). -/
def selectedStep (s : State) : Option Instr := nextEngineStep s.phase s.fst s.run s.i

/-! ## Runs -/

/-- `k` steps of the machine, ending at the first that answers no next state. -/
def runSteps : Nat → State → Host.Outcome State Fault Refusal
  | 0, s => .next s
  | k + 1, s =>
    match step s with
    | .next t => runSteps k t
    | .fault r => .fault r
    | .refused r => .refused r

/-- The message absorbed since INIT after `k` steps from `s`, if it was `msg` before them. -/
def messageAfterRun : Nat → List Byte → State → List Byte
  | 0, msg, _ => msg
  | k + 1, msg, s =>
    match step s with
    | .next t => messageAfterRun k (messageAfter msg s) t
    | .fault _ => msg
    | .refused _ => msg

/-- What is left at the port after a step in which no command is transferred and no reset move is made: a
pause is over, a command waits (R32). -/
def portAfterWait : List HostMove → List HostMove
  | .pause :: rest => rest
  | moves => moves

/-- The next move of the HOST is no reset move. -/
def noResetNow (moves : List HostMove) : Bool :=
  moves.head? != some .applyReset && moves.head? != some .releaseReset

/-- The command words among the HOST's moves, in order. -/
def commandsOf (moves : List HostMove) : List (BitVec 12) :=
  moves.filterMap fun
    | .cmd word => some word
    | _ => none

/-! ## One digest computation -/

/-- No reset move stands among what the host does next. -/
def NoReset (moves : List HostMove) : Prop := HostMove.applyReset ∉ moves ∧ HostMove.releaseReset ∉ moves

/-- The engine steps from FINAL to phase DONE for a message of `L` bytes (R157, R160). -/
def finalSteps (L : Nat) : Nat := if L % 64 ≤ 55 then 67 else 133

/-- The state in the middle of a message: the bytes `msg` have been absorbed since INIT and the engine waits
for a command (R25, R26, R38 (e) and (f)). -/
structure Absorbed (msg : List Byte) (s : State) : Prop where
  rst : s.rst = false
  phase : s.phase = .absorb
  fst : s.fst = .terminatorPlaced
  run : s.run = false
  fcode : s.fcode = .none
  bitlen : s.bitlen = BitVec.ofNat 32 (8 * msg.length)
  lenovf : s.lenovf = decide (2 ^ 29 ≤ msg.length)
  bytes : ∀ q : Fin 64, q.val < msg.length % 64 →
    bufByte s.M (BitVec.ofFin q) = msg.getD (64 * (msg.length / 64) + q.val) 0
  zeros : zeroFrom s.M (msg.length % 64)
  chain : s.H = chainValue msg (msg.length / 64)

end Sys2Proof.Machine
end

