-- ==== Sys2Proof/Certificates/Slice0/Obligations.lean ====
section
/-! DEFINITION. The statements for the provers. Each docstring names the rules of spec/ it formalises. -/

open Sys2Proof Sys2Proof.Machine

/-! ## Encoding -/

/-- Decoding the word of a well-formed instruction gives the instruction back (R81, R82, R85, R86). -/
def Obligations.DecodeOfEncodeGivesInstructionBack : Prop :=
  ∀ i : Instr, i.wellFormed = true → decode (encode i) = .ok i

/-- A command word that decodes is the word of the instruction it decodes to: each word has one meaning
(R81, R86). -/
def Obligations.CommandWordsHaveOneMeaning : Prop :=
  ∀ (cmd : BitVec 12) (i : Instr), decodeCmd cmd = .ok i → encode i = .cmd12 cmd ∧ i.wellFormed = true

/-- R86: which command words are legal, how many, and what a reserved word does when it is accepted. -/
def Obligations.LegalWordsAndReservedWords : Prop :=
  (∀ cmd : BitVec 12, legalCmd cmd = true ↔
    (cmd.extractLsb' 8 4 = 0x1 ∧ cmd.extractLsb' 0 8 = 0) ∨
    (cmd.extractLsb' 8 4 = 0x2) ∨
    (cmd.extractLsb' 8 4 = 0x3 ∧ cmd.extractLsb' 0 8 = 0) ∨
    (cmd.extractLsb' 8 4 = 0x4 ∧ cmd.extractLsb' 0 8 ≤ 0x1f#8) ∨
    (cmd.extractLsb' 8 4 = 0x5 ∧ cmd.extractLsb' 0 8 ≤ 0x0f#8) ∨
    (cmd.extractLsb' 8 4 = 0x6 ∧ cmd.extractLsb' 0 8 = 0)) ∧
  ((List.range 4096).filter (fun n => legalCmd (BitVec.ofNat 12 n))).length = 307 ∧
  (∀ (s : State) (cmd : BitVec 12) (rest : List HostMove),
    legalCmd cmd = false → s.port = .cmd cmd :: rest → cmdReady s = true →
    (s.phase ≠ .fault →
      step s = .next { s with
        port := rest, fcode := .illegalCmd, phase := .fault,
        rsp := if cmd.extractLsb' 8 4 ∈ [0x4#4, 0x5#4, 0x6#4] then some 0x00 else none }) ∧
    (s.phase = .fault →
      step s = .next { s with
        port := rest,
        rsp := if cmd.extractLsb' 8 4 ∈ [0x4#4, 0x5#4, 0x6#4] then some 0x00 else none }))

/-- The rows of R85, bit by bit: which SEQ13 words each engine step stands for. -/
def Obligations.SequencerRowsBitByBit : Prop :=
  ∀ seq : BitVec 13,
    (decodeSeq seq = .ok .roundF ↔ seq.getLsbD 7 = true ∧ seq.extractLsb' 4 3 = 0b000) ∧
    (decodeSeq seq = .ok .roundG ↔ seq.getLsbD 7 = true ∧ seq.extractLsb' 4 3 = 0b001) ∧
    (decodeSeq seq = .ok .roundH ↔ seq.getLsbD 7 = true ∧ seq.extractLsb' 4 3 = 0b010) ∧
    (decodeSeq seq = .ok .roundI ↔ seq.getLsbD 7 = true ∧ seq.extractLsb' 4 3 = 0b011) ∧
    (decodeSeq seq = .ok .feedfwd ↔ seq.getLsbD 7 = true ∧ seq.extractLsb' 0 7 = 0b1000000) ∧
    (decodeSeq seq = .ok .padstep0 ↔
      seq.extractLsb' 10 3 = 0b010 ∧ seq.extractLsb' 8 2 = 0b00 ∧ seq.getLsbD 7 = false) ∧
    (decodeSeq seq = .ok .padstep1 ↔
      seq.extractLsb' 10 3 = 0b010 ∧ seq.extractLsb' 8 2 = 0b01 ∧ seq.getLsbD 7 = false) ∧
    (decodeSeq seq = .ok .padstep2 ↔
      seq.extractLsb' 10 3 = 0b010 ∧ seq.extractLsb' 8 2 = 0b10 ∧ seq.getLsbD 7 = false)

/-- Words written out from R81 and R85 decode to the instructions they stand for; 0x000 and 0x420 are
reserved (R81, R85, R86). -/
def Obligations.WordsOfTheTableDecode : Prop :=
  decodeCmd 0b000100000000 = .ok .init ∧
  decodeCmd 0b001001100001 = .ok (.absorb 0x61) ∧
  decodeCmd 0b001100000000 = .ok .final ∧
  decodeCmd 0b010000011111 = .ok (.rdhex 31) ∧
  decodeCmd 0b010100001111 = .ok (.rddig 15) ∧
  decodeCmd 0b011000000000 = .ok .rdstat ∧
  decodeSeq 0b0010010001111 = .ok .roundF ∧
  decodeSeq 0b0101010110000 = .ok .roundI ∧
  decodeSeq 0b0100111000000 = .ok .feedfwd ∧
  decodeSeq 0b0101001000000 = .ok .padstep2 ∧
  decodeCmd 0b000000000000 = .error (.reservedOp 0) ∧
  decodeCmd 0b010000100000 = .error (.hexIndexTooLarge 32)

/-! ## The step -/

/-- A word presented while `cmd_ready` = 1 is transferred: the step is the meaning of the instruction it
decodes to, in the state with the word taken from the port (R32, R80, R88). That the HOST's moves stand in
`port` is the model's (assumption log 1). -/
def Obligations.StepRunsTheDecodedCommand : Prop :=
  ∀ (s : State) (cmd : BitVec 12) (rest : List HostMove) (i : Instr),
    s.port = .cmd cmd :: rest → cmdReady s = true → decodeCmd cmd = .ok i →
    step s = exec i { s with port := rest }

/-- With `cmd_ready` = 0 and reset neither applied nor moving, the step is the meaning of the engine step
that the sequencer fields decode to (R6, R84, R85); a pause at the port is over, a command stays there
(assumption log 1). -/
def Obligations.StepRunsTheDecodedEngineStep : Prop :=
  ∀ (s : State) (i : Instr),
    s.rst = false → cmdReady s = false → noResetNow s.port = true → decodeSeq (seqWord s) = .ok i →
    step s = exec i { s with port := portAfterWait s.port }

/-- R155: with `cmd_ready` = 0 and reset not applied, exactly one engine step is selected, the one R155 names
by `run`, `i` and `fst`; with `cmd_ready` = 1 none is. -/
def Obligations.ExactlyOneEngineStepWhenBusy : Prop :=
  ∀ s : State, Inv s → s.rst = false →
    (cmdReady s = true → ∀ j, decodeSeq (seqWord s) ≠ .ok j) ∧
    (cmdReady s = false →
      (s.run = true ∧ s.i < 16 ∧ decodeSeq (seqWord s) = .ok .roundF) ∨
      (s.run = true ∧ 16 ≤ s.i ∧ s.i < 32 ∧ decodeSeq (seqWord s) = .ok .roundG) ∨
      (s.run = true ∧ 32 ≤ s.i ∧ s.i < 48 ∧ decodeSeq (seqWord s) = .ok .roundH) ∨
      (s.run = true ∧ 48 ≤ s.i ∧ s.i < 64 ∧ decodeSeq (seqWord s) = .ok .roundI) ∨
      (s.run = true ∧ s.i = 64 ∧ decodeSeq (seqWord s) = .ok .feedfwd) ∨
      (s.run = false ∧ s.phase = .final ∧ s.fst = .terminatorPlaced ∧
        decodeSeq (seqWord s) = .ok .padstep0) ∨
      (s.run = false ∧ s.phase = .final ∧ s.fst = .spillDispatched ∧
        decodeSeq (seqWord s) = .ok .padstep1) ∨
      (s.run = false ∧ s.phase = .final ∧ s.fst = .lengthDispatched ∧
        decodeSeq (seqWord s) = .ok .padstep2))

/-- A command presented while `cmd_ready` = 0 is held at the port with no effect: the step is the one that is
taken with nothing presented, and the command still waits after it (R32, R234 item 1). -/
def Obligations.CommandPresentedEarlyHasNoEffect : Prop :=
  ∀ (s : State) (cmd : BitVec 12) (rest : List HostMove),
    s.port = .cmd cmd :: rest → cmdReady s = false →
    (∀ t, step { s with port := [] } = .next t → step s = .next { t with port := .cmd cmd :: rest }) ∧
    (∀ r, step { s with port := [] } = .refused r → step s = .refused r)

/-- R6, R32 and R85: a command has a meaning exactly when `cmd_ready` = 1, an engine step exactly when its row of
R85 matches and reset is not applied. In every other state `exec` refuses it by name, which is the model's choice
(assumption log 10): the spec gives it no meaning there and `step` never comes to it. -/
def Obligations.MeaningsStopExactlyWhenNotEnabled : Prop :=
  ∀ (i : Instr) (s : State),
    (i ∈ [Instr.roundF, .roundG, .roundH, .roundI, .feedfwd, .padstep0, .padstep1, .padstep2] →
      (s.rst = false → decodeSeq (seqWord s) = .ok i → ∃ t, exec i s = .next t) ∧
      (s.rst = true ∨ decodeSeq (seqWord s) ≠ .ok i → exec i s = .refused .notEnabled)) ∧
    (i ∉ [Instr.roundF, .roundG, .roundH, .roundI, .feedfwd, .padstep0, .padstep1, .padstep2] →
      (cmdReady s = true → ∃ t, exec i s = .next t) ∧
      (cmdReady s = false → exec i s = .refused .notEnabled))

/-- With `cmd_ready` = 1 and no command presented, the engine waits: no engine step is taken, every register
is held and there is no response (R155, R214). -/
def Obligations.IdleEngineHoldsItsState : Prop :=
  ∀ (s : State) (rest : List HostMove),
    cmdReady s = true → (s.port = .pause :: rest ∨ (s.port = [] ∧ rest = [])) →
    step s = .next { s with port := rest, rsp := none }

/-- R31 and R185: the fields of the status byte, and RDSTAT as the command that reads it in every phase in
which a command is accepted, changing nothing. -/
def Obligations.RdstatRespondsWithStatus : Prop :=
  ∀ s : State, cmdReady s = true →
    ∃ v : Byte, exec .rdstat s = .next { s with rsp := some v } ∧
      v.extractLsb' 0 3 = s.phase.code ∧
      v.getLsbD 3 = s.lenovf ∧
      v.extractLsb' 4 3 = s.fcode.code ∧
      v.getLsbD 7 = false

/-- R31: the nine values RDSTAT can return. -/
def Obligations.StatusTakesNineValues : Prop :=
  ∀ s : State, Inv s → MessageInv s → cmdReady s = true →
    ∃ v : Byte, exec .rdstat s = .next { s with rsp := some v } ∧
      v ∈ [0x00#8, 0x01#8, 0x09#8, 0x03#8, 0x0b#8, 0x14#8, 0x1c#8, 0x24#8, 0x2c#8]

/-! ## The commands -/

/-- INIT in phase IDLE or DONE (R151): the initial chaining value, BUF and the length cleared, phase ABSORB;
`a` to `d`, `i`, `run` and every other field are kept. -/
def Obligations.InitStartsAMessage : Prop :=
  ∀ s : State, cmdReady s = true → (s.phase = .idle ∨ s.phase = .done) →
    ∃ t, exec .init s = .next t ∧
      t.H.a = 0x67452301 ∧ t.H.b = 0xefcdab89 ∧ t.H.c = 0x98badcfe ∧ t.H.d = 0x10325476 ∧
      (∀ q, bufByte t.M q = 0) ∧
      t.bitlen = 0 ∧ t.lenovf = false ∧ t.fst = .terminatorPlaced ∧ t.phase = .absorb ∧
      t.w = s.w ∧ t.run = s.run ∧ t.i = s.i ∧ t.fcode = s.fcode ∧
      t.rst = s.rst ∧ t.port = s.port ∧ t.draws = s.draws ∧ t.rsp = none

/-- ABSORB in phase ABSORB (R112, R25, R26): the byte is ORed into BUF at `p = bitlen[8:3]`, the length grows
by 8 modulo 2^32, `lenovf` is set by the wrap only, and the block is dispatched when `p` = 63. Every other
byte of BUF and every other field is kept. -/
def Obligations.AbsorbAppendsAByte : Prop :=
  ∀ (s : State) (b : Byte), cmdReady s = true → s.phase = .absorb →
    ∃ t, exec (.absorb b) s = .next t ∧
      bufByte t.M (s.bitlen.extractLsb' 3 6) = bufByte s.M (s.bitlen.extractLsb' 3 6) ||| b ∧
      (∀ q, q ≠ s.bitlen.extractLsb' 3 6 → bufByte t.M q = bufByte s.M q) ∧
      t.bitlen.toNat = (s.bitlen.toNat + 8) % 2 ^ 32 ∧
      t.lenovf = (s.lenovf || s.bitlen == 0xfffffff8) ∧
      (s.bitlen.extractLsb' 3 6 = 63#6 → t.w = s.H ∧ t.i = 0 ∧ t.run = true) ∧
      (s.bitlen.extractLsb' 3 6 ≠ 63#6 → t.w = s.w ∧ t.i = s.i ∧ t.run = s.run) ∧
      t.H = s.H ∧ t.phase = s.phase ∧ t.fst = s.fst ∧ t.fcode = s.fcode ∧
      t.rst = s.rst ∧ t.port = s.port ∧ t.draws = s.draws ∧ t.rsp = none

/-- In a state whose buffer is zero from the fill pointer on (MessageInv), the OR of ABSORB stores the byte
exactly (R53, R112). -/
def Obligations.AbsorbStoresTheByteExactly : Prop :=
  ∀ (s : State) (b : Byte), MessageInv s → cmdReady s = true → s.phase = .absorb →
    ∃ t, exec (.absorb b) s = .next t ∧ bufByte t.M (s.bitlen.extractLsb' 3 6) = b

/-- FINAL in phase ABSORB (R113): the byte 0x80 is ORed into BUF at `p`, phase FINAL, `fst` = 0; nothing else
is written. -/
def Obligations.FinalPlacesTheTerminator : Prop :=
  ∀ s : State, cmdReady s = true → s.phase = .absorb →
    ∃ t, exec .final s = .next t ∧
      bufByte t.M (s.bitlen.extractLsb' 3 6) = bufByte s.M (s.bitlen.extractLsb' 3 6) ||| 0x80 ∧
      (∀ q, q ≠ s.bitlen.extractLsb' 3 6 → bufByte t.M q = bufByte s.M q) ∧
      t.phase = .final ∧ t.fst = .terminatorPlaced ∧
      t.H = s.H ∧ t.w = s.w ∧ t.bitlen = s.bitlen ∧ t.lenovf = s.lenovf ∧ t.run = s.run ∧ t.i = s.i ∧
      t.fcode = s.fcode ∧ t.rst = s.rst ∧ t.port = s.port ∧ t.draws = s.draws ∧ t.rsp = none

/-- RDDIG with `j` at most 15 in phase DONE (R172, R170, R62): the response is byte `j mod 4` of word
`j div 4` of A to D; no other field is written. -/
def Obligations.RddigRespondsWithTheDigestByte : Prop :=
  ∀ (s : State) (j : Byte), cmdReady s = true → s.phase = .done → j ≤ 0x0f →
    exec (.rddig j) s = .next { s with
      rsp := some (([s.H.a, s.H.b, s.H.c, s.H.d].getD (j.toNat / 4) 0).extractLsb' (8 * (j.toNat % 4)) 8) }

/-- RDHEX with `k` at most 31 in phase DONE (R173, R171, R63): the response is the character code of the high
nibble of digest byte `k div 2` when `k` is even, of the low nibble when `k` is odd; no other field is
written. -/
def Obligations.RdhexRespondsWithTheCharacter : Prop :=
  ∀ (s : State) (k : Byte), cmdReady s = true → s.phase = .done → k ≤ 0x1f →
    ∃ c : Byte, exec (.rdhex k) s = .next { s with rsp := some c } ∧
      let y := (([s.H.a, s.H.b, s.H.c, s.H.d].getD (k.toNat / 8) 0).toNat / 2 ^ (8 * (k.toNat / 2 % 4))) % 256
      let n := if k.toNat % 2 = 0 then y / 16 else y % 16
      c.toNat = if n ≤ 9 then 0x30 + n else 0x61 + (n - 10)

/-- RDHEX or RDDIG with an operand above its range raises ILLEGAL_CMD outside phase FAULT and responds 0x00,
in every phase, and in phase FAULT has no effect and responds 0x00 (R172, R173, R202, R205, R206). -/
def Obligations.ReadIndexOutOfRangeIsIllegal : Prop :=
  ∀ (s : State) (i : Instr), cmdReady s = true →
    ((∃ k, i = .rdhex k ∧ 0x1f < k) ∨ (∃ j, i = .rddig j ∧ 0x0f < j)) →
    (s.phase ≠ .fault →
      exec i s = .next { s with fcode := .illegalCmd, phase := .fault, rsp := some 0x00 }) ∧
    (s.phase = .fault → exec i s = .next { s with rsp := some 0x00 })

/-! ## The engine steps -/

/-- PADSTEP0 (R114): with `p` at least 56 the block is dispatched as it stands and `fst` becomes 1; else the
length words are written first and `fst` becomes 2. LOADW copies A to D (R133). -/
def Obligations.Padstep0SpillsOrWritesTheLength : Prop :=
  ∀ s : State, s.rst = false → s.phase = .final → s.fst = .terminatorPlaced → s.run = false →
    ∃ t, exec .padstep0 s = .next t ∧
      (56#6 ≤ s.bitlen.extractLsb' 3 6 → t.fst = .spillDispatched ∧ t.M = s.M) ∧
      (s.bitlen.extractLsb' 3 6 < 56#6 → t.fst = .lengthDispatched ∧
        bufWord t.M 14 = s.bitlen ∧ bufWord t.M 15 = 0 ∧
        (∀ q : BitVec 6, q < 56 → bufByte t.M q = bufByte s.M q)) ∧
      t.w = s.H ∧ t.i = 0 ∧ t.run = true ∧
      t.H = s.H ∧ t.bitlen = s.bitlen ∧ t.lenovf = s.lenovf ∧ t.phase = s.phase ∧ t.fcode = s.fcode ∧
      t.rst = s.rst ∧ t.port = s.port ∧ t.draws = s.draws ∧ t.rsp = none

/-- PADSTEP1 (R115): the length words are written and the block is dispatched, `fst` becomes 2. -/
def Obligations.Padstep1DispatchesTheLengthBlock : Prop :=
  ∀ s : State, s.rst = false → s.phase = .final → s.fst = .spillDispatched → s.run = false →
    ∃ t, exec .padstep1 s = .next t ∧
      bufWord t.M 14 = s.bitlen ∧ bufWord t.M 15 = 0 ∧
      (∀ q : BitVec 6, q < 56 → bufByte t.M q = bufByte s.M q) ∧
      t.fst = .lengthDispatched ∧ t.w = s.H ∧ t.i = 0 ∧ t.run = true ∧
      t.H = s.H ∧ t.bitlen = s.bitlen ∧ t.lenovf = s.lenovf ∧ t.phase = s.phase ∧ t.fcode = s.fcode ∧
      t.rst = s.rst ∧ t.port = s.port ∧ t.draws = s.draws ∧ t.rsp = none

/-- PADSTEP2 (R116): phase DONE, `fst` = 0; `done` and `cmd_ready` rise to 1; nothing else is written. -/
def Obligations.Padstep2EndsTheFinalisation : Prop :=
  ∀ s : State, s.rst = false → s.phase = .final → s.fst = .lengthDispatched → s.run = false →
    ∃ t, exec .padstep2 s = .next t ∧
      t = { s with phase := .done, fst := .terminatorPlaced, rsp := none } ∧
      doneOut t = true ∧ cmdReady t = true

/-- ROUND_F, ROUND_G, ROUND_H and ROUND_I (R134 to R138): each applies the round function of R134, at its
round index, to `a` to `d` and BUF, and counts the round; no other field is written. -/
def Obligations.RoundStepsApplyTheRoundFunction : Prop :=
  ∀ s : State, s.rst = false → s.run = true →
    (s.i < 16 → exec .roundF s = .next { s with
      w := roundFn (s.i.extractLsb' 0 6) s.w s.M, i := s.i + 1, rsp := none }) ∧
    (16 ≤ s.i → s.i < 32 → exec .roundG s = .next { s with
      w := roundFn (s.i.extractLsb' 0 6) s.w s.M, i := s.i + 1, rsp := none }) ∧
    (32 ≤ s.i → s.i < 48 → exec .roundH s = .next { s with
      w := roundFn (s.i.extractLsb' 0 6) s.w s.M, i := s.i + 1, rsp := none }) ∧
    (48 ≤ s.i → s.i < 64 → exec .roundI s = .next { s with
      w := roundFn (s.i.extractLsb' 0 6) s.w s.M, i := s.i + 1, rsp := none })

/-- FEEDFWD (R139): A to D each grow by a to d modulo 2^32, BUF is cleared, `run` = 0; `i` stays 64 and a to d
keep their values; nothing else is written. `cmd_ready` is then 1 in phase ABSORB; in phase FINAL the next engine
step is PADSTEP1 or PADSTEP2. -/
def Obligations.FeedfwdAddsTheWorkingVariables : Prop :=
  ∀ s : State, s.rst = false → s.run = true → s.i = 64 →
    ∃ t, exec .feedfwd s = .next t ∧
      t.H.a.toNat = (s.H.a.toNat + s.w.a.toNat) % 2 ^ 32 ∧
      t.H.b.toNat = (s.H.b.toNat + s.w.b.toNat) % 2 ^ 32 ∧
      t.H.c.toNat = (s.H.c.toNat + s.w.c.toNat) % 2 ^ 32 ∧
      t.H.d.toNat = (s.H.d.toNat + s.w.d.toNat) % 2 ^ 32 ∧
      (∀ q, bufByte t.M q = 0) ∧ t.run = false ∧ t.i = 64 ∧ t.w = s.w ∧
      (s.phase = .absorb → cmdReady t = true) ∧
      (s.phase = .final → cmdReady t = false) ∧
      (s.phase = .final → s.fst = .spillDispatched → decodeSeq (seqWord t) = .ok .padstep1) ∧
      (s.phase = .final → s.fst = .lengthDispatched → decodeSeq (seqWord t) = .ok .padstep2) ∧
      t.bitlen = s.bitlen ∧ t.lenovf = s.lenovf ∧ t.phase = s.phase ∧ t.fst = s.fst ∧ t.fcode = s.fcode ∧
      t.rst = s.rst ∧ t.port = s.port ∧ t.draws = s.draws ∧ t.rsp = none

/-! ## Faults -/

/-- R203: the table of legal commands against phases IDLE, ABSORB and DONE. A command that executes leaves no
fault latched that was not; one that does not raises SEQ_ERR. Phase FINAL accepts no command. -/
def Obligations.CommandsOutOfPhaseRaiseSeqErr : Prop :=
  (∀ s : State, s.phase = .final → cmdReady s = false) ∧
  ∀ (s : State) (i : Instr) (executes : Bool), cmdReady s = true → i.wellFormed = true →
    (match i, s.phase with
      | .init, .idle => executes = true
      | .init, .absorb => executes = false
      | .init, .done => executes = true
      | .absorb _, .idle => executes = false
      | .absorb _, .absorb => executes = true
      | .absorb _, .done => executes = false
      | .final, .idle => executes = false
      | .final, .absorb => executes = true
      | .final, .done => executes = false
      | .rdhex _, .idle => executes = false
      | .rdhex _, .absorb => executes = false
      | .rdhex _, .done => executes = true
      | .rddig _, .idle => executes = false
      | .rddig _, .absorb => executes = false
      | .rddig _, .done => executes = true
      | .rdstat, .idle => executes = true
      | .rdstat, .absorb => executes = true
      | .rdstat, .done => executes = true
      | _, _ => False) →
    ∃ t, exec i s = .next t ∧
      (executes = false → t.phase = .fault ∧ t.fcode = .seqErr) ∧
      (executes = true → t.phase ≠ .fault ∧ t.fcode = s.fcode)

/-- R88: the order of the checks for an accepted word. RDSTAT first, in every phase; then no effect in phase FAULT;
then legality; then the phase; else the command's own rule, which raises no fault. -/
def Obligations.AcceptedWordsAreDecidedInOrder : Prop :=
  ∀ (s : State) (cmd : BitVec 12) (rest : List HostMove),
    s.port = .cmd cmd :: rest → cmdReady s = true →
    let op := cmd.extractLsb' 8 4
    let allowed : Prop :=
      (op = 0x1 ∧ (s.phase = .idle ∨ s.phase = .done)) ∨ ((op = 0x2 ∨ op = 0x3) ∧ s.phase = .absorb) ∨
      ((op = 0x4 ∨ op = 0x5) ∧ s.phase = .done)
    (cmd = 0x600 → step s = .next { s with port := rest, rsp := some (statusByte s) }) ∧
    (cmd ≠ 0x600 → s.phase = .fault →
      step s = .next { s with port := rest, rsp := if op ∈ [0x4#4, 0x5#4, 0x6#4] then some 0x00 else none }) ∧
    (s.phase ≠ .fault → legalCmd cmd = false →
      step s = .next { s with
        port := rest, fcode := .illegalCmd, phase := .fault,
        rsp := if op ∈ [0x4#4, 0x5#4, 0x6#4] then some 0x00 else none }) ∧
    (cmd ≠ 0x600 → s.phase ≠ .fault → legalCmd cmd = true → ¬allowed →
      step s = .next { s with
        port := rest, fcode := .seqErr, phase := .fault,
        rsp := if op ∈ [0x4#4, 0x5#4] then some 0x00 else none }) ∧
    (cmd ≠ 0x600 → s.phase ≠ .fault → legalCmd cmd = true → allowed →
      ∃ i t, decodeCmd cmd = .ok i ∧ step s = exec i { s with port := rest } ∧ step s = .next t ∧
        t.phase ≠ .fault ∧ t.fcode = s.fcode)

/-- R204 with R201, R202, R203 and R205: an accepted word that faults in phase IDLE, ABSORB or DONE writes
`fcode` and `phase` and, when its `op` is 0x4, 0x5 or 0x6, responds 0x00; nothing else. A reserved word reports
ILLEGAL_CMD in every phase, a legal one SEQ_ERR. Then `fault` = 1, `done` = 0, `cmd_ready` = 1. -/
def Obligations.FaultEntryWritesOnlyTheLatch : Prop :=
  ∀ (s : State) (cmd : BitVec 12) (rest : List HostMove) (t : State),
    s.port = .cmd cmd :: rest → cmdReady s = true → s.phase ≠ .fault →
    step s = .next t → t.phase = .fault →
    t = { s with
      port := rest, phase := .fault,
      fcode := if legalCmd cmd then .seqErr else .illegalCmd,
      rsp := if cmd.extractLsb' 8 4 ∈ [0x4#4, 0x5#4, 0x6#4] then some 0x00 else none } ∧
    faultOut t = true ∧ doneOut t = false ∧ cmdReady t = true

/-- R206: in phase FAULT every word is accepted; RDSTAT (0x600) responds with STATUS; every other word writes no
state at all and responds 0x00 when its `op` is 0x4, 0x5 or 0x6, otherwise not. -/
def Obligations.FaultPhaseIgnoresAllButRdstat : Prop :=
  ∀ (s : State) (cmd : BitVec 12) (rest : List HostMove),
    s.phase = .fault → s.run = false → s.rst = false → s.port = .cmd cmd :: rest →
    cmdReady s = true ∧
    (cmd = 0x600 → step s = .next { s with port := rest, rsp := some (statusByte s) }) ∧
    (cmd ≠ 0x600 → step s = .next { s with
      port := rest,
      rsp := if cmd.extractLsb' 8 4 ∈ [0x4#4, 0x5#4, 0x6#4] then some 0x00 else none })

/-- R83: an accepted word produces a response exactly when its `op` is 0x4, 0x5 or 0x6, whatever `imm` and the
phase; the byte is 0x00 when a word with `op` 0x4 or 0x5 faults or is given in phase FAULT. -/
def Obligations.ResponseDependsOnOpAlone : Prop :=
  ∀ (s : State) (cmd : BitVec 12) (rest : List HostMove),
    s.port = .cmd cmd :: rest → cmdReady s = true →
    ∃ t, step s = .next t ∧
      (t.rsp.isSome = true ↔ cmd.extractLsb' 8 4 ∈ [0x4#4, 0x5#4, 0x6#4]) ∧
      (cmd.extractLsb' 8 4 ∈ [0x4#4, 0x5#4] → t.phase = .fault → t.rsp = some 0x00)

/-! ## Rules about every step -/

/-- The transitions of `phase` that R154 lists, with the cause of each change, while reset is not applied; with
reset applied `phase` changes to IDLE only, and its release leads to IDLE from anything. No other change exists:
FAULT is left only by reset (R207), FINAL only by PADSTEP2 or reset. -/
def Obligations.PhaseTransitionsAndTheirCauses : Prop :=
  ∀ s t : State, step s = .next t →
    (s.rst = false → t.rst = false → s.phase ≠ t.phase →
      (∃ cmd rest, s.port = .cmd cmd :: rest ∧ cmdReady s = true ∧
        ((s.phase = .idle ∧ t.phase = .absorb ∧ cmd = 0x100) ∨
         (s.phase = .done ∧ t.phase = .absorb ∧ cmd = 0x100) ∨
         (s.phase = .absorb ∧ t.phase = .final ∧ cmd = 0x300) ∨
         ((s.phase = .idle ∨ s.phase = .absorb ∨ s.phase = .done) ∧ t.phase = .fault ∧ cmd ≠ 0x600))) ∨
      (cmdReady s = false ∧ s.phase = .final ∧ t.phase = .done ∧
        decodeSeq (seqWord s) = .ok .padstep2)) ∧
    (s.rst = true ∨ t.rst = true → t.phase = s.phase ∨ t.phase = .idle) ∧
    (s.rst = true → t.rst = false → t.phase = .idle)

/-- A to D have two writers, INIT and FEEDFWD (R21, C4): any other step, reset apart, keeps them. -/
def Obligations.ChainingStateHasTwoWriters : Prop :=
  ∀ s t : State, step s = .next t → s.rst = false → t.rst = false → s.H ≠ t.H →
    (cmdReady s = true ∧ (s.phase = .idle ∨ s.phase = .done) ∧
      ∃ rest, s.port = .cmd 0x100 :: rest) ∨
    (cmdReady s = false ∧ decodeSeq (seqWord s) = .ok .feedfwd ∧ t.H = quadAdd s.H s.w)

/-- BUF is written by the operations of R50 and R53 only: INIT, ABSORB and FINAL of the commands; PADSTEP0,
PADSTEP1 and FEEDFWD of the engine steps; any other step, reset apart, keeps every byte. -/
def Obligations.BufferIsWrittenByItsWritersOnly : Prop :=
  ∀ s t : State, step s = .next t → s.rst = false → t.rst = false → s.M ≠ t.M →
    (cmdReady s = true ∧ ∃ cmd rest, s.port = .cmd cmd :: rest ∧
      (cmd = 0x100 ∨ cmd.extractLsb' 8 4 = 0x2 ∨ cmd = 0x300)) ∨
    (cmdReady s = false ∧
      (decodeSeq (seqWord s) = .ok .padstep0 ∨ decodeSeq (seqWord s) = .ok .padstep1 ∨
       decodeSeq (seqWord s) = .ok .feedfwd))

/-- `lenovf` (R26): it is set only by the ABSORB that makes `bitlen` wrap from 0xfffffff8, and cleared only by
INIT, reset apart. -/
def Obligations.LenovfIsStickyUntilInit : Prop :=
  ∀ s t : State, step s = .next t → s.rst = false → t.rst = false →
    (s.lenovf = false → t.lenovf = true →
      s.bitlen = 0xfffffff8 ∧ t.bitlen = 0 ∧ s.phase = .absorb ∧
        ∃ (b : Byte) (rest : List HostMove), s.port = .cmd (0x2#4 ++ b) :: rest) ∧
    (s.lenovf = true → t.lenovf = false →
      (s.phase = .idle ∨ s.phase = .done) ∧ ∃ rest, s.port = .cmd 0x100 :: rest)

/-! ## Reset -/

/-- R230 and R232: reset can be applied in any state; while it is applied `cmd_ready` = 0, no command is accepted
and no engine step is taken; when it is released the sequencer and status state are the reset values, STATUS =
0x00, `cmd_ready` = 1, `done` = 0, `fault` = 0. Nothing is said of the unspecified datapath. That under reset the
registers either keep their values or take the reset values, in each step, is the model's choice (assumption log
6), as is the list of the HOST's moves (assumption log 1). -/
def Obligations.ResetInputHoldsAndReleases : Prop :=
  (∀ s : State, s.rst = true → cmdReady s = false) ∧
  (∀ (s : State) (rest : List HostMove),
    s.port = .applyReset :: rest ∨ (s.rst = true ∧ noResetNow s.port = true ∧ portAfterWait s.port = rest) →
    ∃ t, step s = .next t ∧ t.rst = true ∧ t.port = rest ∧ t.rsp = none ∧
      (t = { s with rst := true, rsp := none, port := rest, draws := t.draws } ∨
        ∃ dp, t = { State.resetWith dp with rst := true, port := rest, draws := t.draws })) ∧
  (∀ (s : State) (rest : List HostMove), s.rst = true → s.port = .releaseReset :: rest →
    ∃ t, step s = .next t ∧ t.port = rest ∧ t.rst = false ∧
      t.phase = .idle ∧ t.fst = .terminatorPlaced ∧ t.run = false ∧ t.i = 0 ∧ t.fcode = .none ∧
      t.lenovf = false ∧ statusByte t = 0x00 ∧ cmdReady t = true ∧ doneOut t = false ∧ faultOut t = false)

/-- R37: the reset state, for every value of RESET_DATAPATH; State.reset is it for one draw. -/
def Obligations.ResetStateIsAsTheSpecSays : Prop :=
  (∀ dp : Datapath,
    let s := State.resetWith dp
    s.phase = .idle ∧ s.fst = .terminatorPlaced ∧ s.run = false ∧ s.i = 0 ∧ s.fcode = .none ∧
    s.lenovf = false ∧ statusByte s = 0x00 ∧ cmdReady s = true ∧ doneOut s = false ∧ faultOut s = false ∧
    s.rsp = none) ∧
  ∃ dp, State.reset = State.resetWith dp

/-! ## Invariants -/

/-- The invariants hold after reset, whatever RESET_DATAPATH is (R38). -/
def Obligations.InvariantsHoldAfterReset : Prop :=
  ∀ dp : Datapath, Inv (State.resetWith dp) ∧ MessageInv (State.resetWith dp) ∧
    ∀ msg, Tracks msg (State.resetWith dp)

/-- R38 (a) to (d): every step keeps them, steps under reset among them. -/
def Obligations.EveryStepKeepsTheInvariant : Prop :=
  ∀ s t : State, Inv s → step s = .next t → Inv t

/-- The zero part of R38 (e), with what R24, R26, R28, R111 (a), R114 and R115 say of BUF, `fst` and the fill
pointer: every step keeps it. -/
def Obligations.EveryStepKeepsTheBufferInvariant : Prop :=
  ∀ s t : State, MessageInv s → step s = .next t → MessageInv t

/-- R38 (e), (f), (g) as an invariant with the message absorbed since INIT beside the state (R14, R25): every step
keeps what Tracks says of A to D, a to d, BUF, `bitlen` and `lenovf`, the message growing by each ABSORB that
executes and beginning anew at each INIT that executes. -/
def Obligations.EveryStepKeepsTheMessage : Prop :=
  ∀ (s t : State) (msg : List Byte), Inv s → Tracks msg s → step s = .next t → Tracks (messageAfter msg s) t

/-- R38, (a) to (g), in every state that any moves of the HOST, resets among them, lead to from reset, whatever
RESET_DATAPATH is; `msg` is the message absorbed since INIT. -/
def Obligations.ReachableStatesMeetTheInvariants : Prop :=
  ∀ (dp : Datapath) (moves : List HostMove) (k : Nat) (s : State),
    runSteps k { State.resetWith dp with port := moves } = .next s →
    let msg := messageAfterRun k [] { State.resetWith dp with port := moves }
    let n := msg.length
    let p := n % 64
    (s.phase.code ≤ 4 ∧ s.fst.code ≤ 2 ∧ s.i ≤ 64 ∧ s.fcode.code ≤ 2) ∧
    (s.run = true → s.phase = .absorb ∨ s.phase = .final) ∧
    (s.fcode.code ≠ 0 ↔ s.phase = .fault) ∧
    (s.phase = .absorb ∨ s.phase = .final ∨ s.phase = .done → s.bitlen.extractLsb' 0 3 = 0) ∧
    (s.phase = .absorb → s.run = false →
      (∀ q : Fin 64, q < p → bufByte s.M (BitVec.ofFin q) = msg.getD (n - p + q) 0) ∧
      (∀ q : Fin 64, p ≤ q → bufByte s.M (BitVec.ofFin q) = 0)) ∧
    (s.phase = .absorb → s.run = false → s.H = chainValue msg (n / 64)) ∧
    (s.phase = .done → s.H = md5State msg)

/-- From a state that meets the invariant a step always answers a next state: no command and no engine step
ends the run (R88, R155, R201). -/
def Obligations.InvariantStatesNeverStop : Prop :=
  ∀ s : State, Inv s → ∃ t, step s = .next t

/-- The one case to which the spec gives no rule, and the model's refusal of it (U7, R29, assumption log 9): a
step stops only with `run` = 1 and `i` above 64. -/
def Obligations.StepsStopOnlyOnCodesNeverProduced : Prop :=
  ∀ (s : State) (r : Refusal), step s = .refused r → r = .noRule ∧ s.run = true ∧ 64 < s.i

/-! ## What cannot be observed -/

/-- R37, R35, U2, U8: two states that differ only in registers nothing can read yet take steps with the same
outputs into states that again differ only so. -/
def Obligations.HiddenRegistersAreNeverObserved : Prop :=
  ∀ s t : State, Inv s → SameButHidden s t →
    ∃ s' t', step s = .next s' ∧ step t = .next t' ∧ SameButHidden s' t' ∧ outputs s' = outputs t'

/-- The states after reset for two values of RESET_DATAPATH differ only in registers nothing can read yet
(R37, D15). -/
def Obligations.ResetDatapathIsHidden : Prop :=
  ∀ dp dp' : Datapath, SameButHidden (State.resetWith dp) (State.resetWith dp')

/-! ## Compression -/

/-- R141: from the dispatch of a block, 65 engine steps with no command accepted in between, the rounds `i` = 0 to
63 and FEEDFWD at `i` = 64, leave A to D = `compress(Hin, M)`, BUF all zero and `run` = 0. -/
def Obligations.SixtyFiveStepsCompressTheBlock : Prop :=
  ∀ s : State, s.rst = false → s.run = true → s.i = 0 → s.w = s.H → NoReset s.port →
    (∀ k, k < 65 → ∃ u, runSteps k s = .next u ∧ cmdReady u = false ∧ u.run = true ∧ u.i.toNat = k) ∧
    ∃ t, runSteps 65 s = .next t ∧
      t.H = compress s.H s.M ∧ (∀ q, bufByte t.M q = 0) ∧ t.run = false ∧ t.i = 64 ∧
      t.phase = s.phase ∧ t.fst = s.fst ∧ t.bitlen = s.bitlen ∧ t.lenovf = s.lenovf ∧
      t.fcode = s.fcode ∧ t.rst = false ∧ t.rsp = none ∧ commandsOf t.port = commandsOf s.port

/-- R160, R32: every period with `cmd_ready` = 0 ends by the engine's own steps, after at most 133 of them,
whatever the host does short of reset. Steps of the model, not clock cycles (assumption log 7). -/
def Obligations.BusyPeriodsEndWithin133Steps : Prop :=
  ∀ s : State, Inv s → MessageInv s → s.rst = false → NoReset s.port →
    ∃ k, k ≤ 133 ∧ (∀ j, j < k → ∃ u, runSteps j s = .next u ∧ cmdReady u = false) ∧
      ∃ t, runSteps k s = .next t ∧ cmdReady t = true

/-! ## One message from INIT to the digest -/

/-- INIT begins a message with no byte absorbed (R151, R25, R38). -/
def Obligations.InitBeginsTheEmptyMessage : Prop :=
  ∀ (s : State) (rest : List HostMove), Inv s → cmdReady s = true → s.phase = .idle ∨ s.phase = .done →
    s.port = .cmd 0x100 :: rest →
    ∃ t, step s = .next t ∧ Absorbed [] t ∧ t.port = rest

/-- ABSORB appends its byte: from the state after the bytes `msg`, accepting ABSORB `b` and the engine steps it
starts (none, or 65 when the block is full) lead to the state after `msg` and `b`, with A to D the chaining
value after the full blocks (R112, R117, R157, R160, R38 (e) and (f)). -/
def Obligations.AbsorbExtendsTheMessage : Prop :=
  ∀ (s : State) (msg : List Byte) (b : Byte) (rest : List HostMove), Absorbed msg s →
    s.port = .cmd (0x2#4 ++ b) :: rest → NoReset rest → HostMove.pause ∉ rest →
    ∃ t, runSteps (1 + if msg.length % 64 = 63 then 65 else 0) s = .next t ∧
      Absorbed (msg ++ [b]) t ∧ t.port = rest

/-- FINAL ends the message: 67 engine steps later, or 133 when `L mod 64` is at least 56, the engine is in phase
DONE with A to D = `md5_state(msg)` (R113 to R117, R157, R160). -/
def Obligations.FinalLeavesTheDigest : Prop :=
  ∀ (s : State) (msg : List Byte) (rest : List HostMove), Absorbed msg s →
    s.port = .cmd 0x300 :: rest → NoReset rest → HostMove.pause ∉ rest →
    ∃ t, runSteps (1 + finalSteps msg.length) s = .next t ∧
      t.phase = .done ∧ t.H = md5State msg ∧ t.run = false ∧ t.rst = false ∧ t.fcode = .none ∧
      t.lenovf = decide (2 ^ 29 ≤ msg.length) ∧ cmdReady t = true ∧ t.port = rest

/-- R157: from phase IDLE or DONE, the commands INIT, ABSORB of every byte of any message, FINAL raise no fault
and lead to phase DONE with A to D = `md5_state(msg)`, `lenovf` = 1 exactly when `L >= 2^29`, and STATUS 0x03 or
0x0b, after `65 * (L div 64)` engine steps and 67 or 133 more. -/
def Obligations.MessageToDigestEndToEnd : Prop :=
  ∀ (s : State) (msg : List Byte), Inv s → s.rst = false → s.phase = .idle ∨ s.phase = .done →
    s.port = digestScript msg →
    ∃ t, runSteps (2 + msg.length + 65 * (msg.length / 64) + finalSteps msg.length) s = .next t ∧
      t.phase = .done ∧ t.H = md5State msg ∧ t.fcode = .none ∧
      t.lenovf = decide (2 ^ 29 ≤ msg.length) ∧
      statusByte t = (if msg.length < 2 ^ 29 then 0x03 else 0x0b) ∧
      cmdReady t = true ∧ t.port = []

/-- R158: the transaction `compute_digest(msg)`, from phase IDLE or DONE and whatever was computed before: after
the digest script and its engine steps, the 32 RDHEX commands respond with the 32 characters of `md5_hex(msg)`, in
order, which depend on `msg` alone. -/
def Obligations.ComputeDigestAnswersTheString : Prop :=
  ∀ (s : State) (msg : List Byte), Inv s → s.rst = false → s.phase = .idle ∨ s.phase = .done →
    s.port = computeDigest msg →
    ∀ k, k < 32 →
      ∃ t, runSteps (2 + msg.length + 65 * (msg.length / 64) + finalSteps msg.length + (k + 1)) s = .next t ∧
        t.rsp = some ((md5Hex msg).getD k 0) ∧ t.phase = .done ∧ t.H = md5State msg

/-- R174: in phase DONE with A to D = `md5_state(msg)`, RDDIG `j` and RDHEX `k` respond with the bytes of
`md5_digest(msg)` and the characters of `md5_hex(msg)`, all of them in `[0-9a-f]`, the string being the writing
of the bytes in order, high digit first. -/
def Obligations.ReadCommandsSpellTheDigest : Prop :=
  ∀ (s : State) (msg : List Byte), cmdReady s = true → s.phase = .done → s.H = md5State msg →
    (∀ j : Byte, j ≤ 0x0f → exec (.rddig j) s = .next { s with rsp := (md5Digest msg)[j.toNat]? }) ∧
    (∀ k : Byte, k ≤ 0x1f → exec (.rdhex k) s = .next { s with rsp := (md5Hex msg)[k.toNat]? }) ∧
    (md5Digest msg).length = 16 ∧ (md5Hex msg).length = 32 ∧
    (∀ c ∈ md5Hex msg, (0x30 ≤ c.toNat ∧ c.toNat ≤ 0x39) ∨ (0x61 ≤ c.toNat ∧ c.toNat ≤ 0x66)) ∧
    (∀ j : Nat, j < 16 →
      (md5Hex msg).getD (2 * j) 0 = hexDigit (BitVec.ofNat 4 (((md5Digest msg).getD j 0).toNat / 16)) ∧
      (md5Hex msg).getD (2 * j + 1) 0 = hexDigit (BitVec.ofNat 4 (((md5Digest msg).getD j 0).toNat % 16)))

/-! ## Words, tables and the padded message -/

/-- R52: the two views of BUF are tied little-endian: a word is its four bytes, the last the most
significant. -/
def Obligations.BufferViewsAreLittleEndian : Prop :=
  ∀ (M : Block) (j : Fin 16),
    bufWord M j =
      bufByte M (BitVec.ofNat 6 (4 * j.val + 3)) ++ bufByte M (BitVec.ofNat 6 (4 * j.val + 2)) ++
      bufByte M (BitVec.ofNat 6 (4 * j.val + 1)) ++ bufByte M (BitVec.ofNat 6 (4 * j.val))

/-- R9: for `1 <= s <= 31`, bit `n` of `x` becomes bit `(n + s) mod 32` of `rotl32(x, s)`. -/
def Obligations.RotateMovesEachBit : Prop :=
  ∀ (x : Word) (s n : Nat), 1 ≤ s → s ≤ 31 → n < 32 →
    (rotl32 x s).getLsbD ((n + s) % 32) = x.getLsbD n

/-- R131: what each nonlinear function does to each bit: in the first group bit `n` of `b` chooses between `c`
and `d`, in the second bit `n` of `d` chooses between `b` and `c`, the third is the parity, the fourth is
`c ^ (b | ~d)`. -/
def Obligations.NonlinearFunctionsBitByBit : Prop :=
  ∀ (i : BitVec 6) (b c d : Word) (n : Nat), n < 32 →
    (i.toNat < 16 → (nonlinear i b c d).getLsbD n = bif b.getLsbD n then c.getLsbD n else d.getLsbD n) ∧
    (16 ≤ i.toNat → i.toNat < 32 →
      (nonlinear i b c d).getLsbD n = bif d.getLsbD n then b.getLsbD n else c.getLsbD n) ∧
    (32 ≤ i.toNat → i.toNat < 48 →
      (nonlinear i b c d).getLsbD n = (b.getLsbD n ^^ c.getLsbD n ^^ d.getLsbD n)) ∧
    (48 ≤ i.toNat →
      (nonlinear i b c d).getLsbD n = (c.getLsbD n ^^ (b.getLsbD n || !d.getLsbD n)))

/-- R132: in each group of sixteen rounds `g` runs through every index 0..15. R61: the rotate amounts depend on
the group and on `i mod 4` only and lie between 4 and 23. -/
def Obligations.RoundGroupsReadEveryWordOnce : Prop :=
  (∀ (group : Fin 4) (word : Fin 16), ∃ i : BitVec 6, i.toNat / 16 = group.val ∧ messageIndex i = word) ∧
  (∀ i i' : BitVec 6, i.toNat / 16 = i'.toNat / 16 → messageIndex i = messageIndex i' → i = i') ∧
  (∀ i i' : BitVec 6, i.toNat / 16 = i'.toNat / 16 → i.toNat % 4 = i'.toNat % 4 → sAt i = sAt i') ∧
  (∀ i : BitVec 6, 4 ≤ (sAt i).toNat ∧ (sAt i).toNat ≤ 23)

/-- R110 and R111: the padded message has `NB` blocks of sixteen words with
`64*NB - 72 <= L <= 64*NB - 9`; its bytes are those of the message, then 0x80, then zeros up to byte
`64*NB - 9`; its last two words are the low 32 bits of the bit length and 0. -/
def Obligations.PaddedMessageLayout : Prop :=
  ∀ msg : List Byte,
    let L := msg.length
    let NB := (L + 8) / 64 + 1
    let byte := fun n => ((paddedMessage msg).getD (n / 4) 0).extractLsb' (8 * (n % 4)) 8
    (paddedMessage msg).length = 16 * NB ∧
    64 * NB ≤ L + 72 ∧ L + 9 ≤ 64 * NB ∧
    (∀ n, n < L → byte n = msg.getD n 0) ∧
    byte L = 0x80 ∧
    (∀ n, L < n → n + 9 ≤ 64 * NB → byte n = 0) ∧
    (paddedMessage msg).getD (16 * NB - 2) 0 = BitVec.ofNat 32 (8 * L) ∧
    (paddedMessage msg).getD (16 * NB - 1) 0 = 0

/-! ## The host's table words -/

/-- The instruction that decodeTableWord reads from a word is the one the next step runs after withFetchWord,
with the HOST's other moves still to come. The placing is the model's own (assumption log 1, log 11). -/
def Obligations.FetchWordRunsTheTableWord : Prop :=
  ∀ (s : State) (w : Nat) (i : Instr), decodeTableWord 16 w = some i →
    ∃ s', step (s.withFetchWord 16 w) = exec i s' ∧ s'.port = s.port ∧ s'.M = s.M ∧ s'.H = s.H
end

