-- ==== Sys2Proof/Laws/Decode.lean ====
section
/-! SUPPORT. The fields of a command word, and the decoder on words put together from fields. -/

namespace Sys2Proof

/-- A command word is its two fields (R80). -/
theorem cmdWord_opOf_immOf : ∀ cmd : BitVec 12, cmdWord (opOf cmd) (immOf cmd) = cmd := by
  decide +kernel

@[simp] theorem opOf_cmdWord : ∀ (op : BitVec 4) (imm : Byte), opOf (cmdWord op imm) = op := by
  decide +kernel

@[simp] theorem immOf_cmdWord : ∀ (op : BitVec 4) (imm : Byte), immOf (cmdWord op imm) = imm := by
  decide +kernel

/-- Which words respond, by their `op` (R83). -/
theorem respondsOp_iff (op : BitVec 4) : respondsOp op = true ↔ op = 0x4 ∨ op = 0x5 ∨ op = 0x6 := by
  simp [respondsOp, or_assoc]

/-- ABSORB has no illegal operand (R202). -/
@[simp] theorem decodeCmd_absorb (b : Byte) : decodeCmd (cmdWord 0x2 b) = .ok (.absorb b) := by
  simp [decodeCmd]

/-- A word is legal exactly when it decodes (R86). -/
theorem legalCmd_iff (cmd : BitVec 12) : legalCmd cmd = true ↔ ∃ i, decodeCmd cmd = .ok i := by
  unfold legalCmd
  cases decodeCmd cmd <;> simp [Except.toBool]

/-- The three commands without an operand have one word each, and ABSORB the words with `op` 0x2 (R81). -/
theorem decodeCmd_word {cmd : BitVec 12} {i : Instr} (h : decodeCmd cmd = .ok i) :
    (i = .init ∧ cmd = 0x100) ∨ (∃ b, i = .absorb b ∧ cmd = cmdWord 0x2 b) ∨
    (i = .final ∧ cmd = 0x300) ∨ (∃ k, i = .rdhex k ∧ cmd = cmdWord 0x4 k ∧ k ≤ 0x1f) ∨
    (∃ j, i = .rddig j ∧ cmd = cmdWord 0x5 j ∧ j ≤ 0x0f) ∨ (i = .rdstat ∧ cmd = 0x600) := by
  have e := cmdWord_opOf_immOf cmd
  unfold decodeCmd at h
  simp only at h
  repeat' split at h
  all_goals cases h
  all_goals simp_all
  all_goals (rw [← e]; rfl)

end Sys2Proof
end

