-- ==== Sys2Proof/Laws/State.lean ====
section
/-! SUPPORT. One lemma per field per update of State: what each shared operation and each effect leaves in
every field. Every later proof simplifies with these and unfolds no record update. -/

namespace Sys2Proof.Machine

/-! ## respond -/

section Respond
variable (s : State)

@[simp] theorem respond_H (v : Byte) : (respond v s).H = s.H := rfl
@[simp] theorem respond_w (v : Byte) : (respond v s).w = s.w := rfl
@[simp] theorem respond_M (v : Byte) : (respond v s).M = s.M := rfl
@[simp] theorem respond_bitlen (v : Byte) : (respond v s).bitlen = s.bitlen := rfl
@[simp] theorem respond_lenovf (v : Byte) : (respond v s).lenovf = s.lenovf := rfl
@[simp] theorem respond_phase (v : Byte) : (respond v s).phase = s.phase := rfl
@[simp] theorem respond_fst (v : Byte) : (respond v s).fst = s.fst := rfl
@[simp] theorem respond_run (v : Byte) : (respond v s).run = s.run := rfl
@[simp] theorem respond_i (v : Byte) : (respond v s).i = s.i := rfl
@[simp] theorem respond_fcode (v : Byte) : (respond v s).fcode = s.fcode := rfl
@[simp] theorem respond_rst (v : Byte) : (respond v s).rst = s.rst := rfl
@[simp] theorem respond_rsp (v : Byte) : (respond v s).rsp = some v := rfl
@[simp] theorem respond_port (v : Byte) : (respond v s).port = s.port := rfl
@[simp] theorem respond_draws (v : Byte) : (respond v s).draws = s.draws := rfl

end Respond

/-! ## noResponse -/

section NoResponse
variable (s : State)

@[simp] theorem noResponse_H : (noResponse s).H = s.H := rfl
@[simp] theorem noResponse_w : (noResponse s).w = s.w := rfl
@[simp] theorem noResponse_M : (noResponse s).M = s.M := rfl
@[simp] theorem noResponse_bitlen : (noResponse s).bitlen = s.bitlen := rfl
@[simp] theorem noResponse_lenovf : (noResponse s).lenovf = s.lenovf := rfl
@[simp] theorem noResponse_phase : (noResponse s).phase = s.phase := rfl
@[simp] theorem noResponse_fst : (noResponse s).fst = s.fst := rfl
@[simp] theorem noResponse_run : (noResponse s).run = s.run := rfl
@[simp] theorem noResponse_i : (noResponse s).i = s.i := rfl
@[simp] theorem noResponse_fcode : (noResponse s).fcode = s.fcode := rfl
@[simp] theorem noResponse_rst : (noResponse s).rst = s.rst := rfl
@[simp] theorem noResponse_rsp : (noResponse s).rsp = none := rfl
@[simp] theorem noResponse_port : (noResponse s).port = s.port := rfl
@[simp] theorem noResponse_draws : (noResponse s).draws = s.draws := rfl

end NoResponse

/-! ## respondZeroIf -/

section RespondZeroIf
variable (s : State)

@[simp] theorem respondZeroIf_H (r : Bool) : (respondZeroIf r s).H = s.H := by
  simp only [respondZeroIf]; split <;> rfl
@[simp] theorem respondZeroIf_w (r : Bool) : (respondZeroIf r s).w = s.w := by
  simp only [respondZeroIf]; split <;> rfl
@[simp] theorem respondZeroIf_M (r : Bool) : (respondZeroIf r s).M = s.M := by
  simp only [respondZeroIf]; split <;> rfl
@[simp] theorem respondZeroIf_bitlen (r : Bool) : (respondZeroIf r s).bitlen = s.bitlen := by
  simp only [respondZeroIf]; split <;> rfl
@[simp] theorem respondZeroIf_lenovf (r : Bool) : (respondZeroIf r s).lenovf = s.lenovf := by
  simp only [respondZeroIf]; split <;> rfl
@[simp] theorem respondZeroIf_phase (r : Bool) : (respondZeroIf r s).phase = s.phase := by
  simp only [respondZeroIf]; split <;> rfl
@[simp] theorem respondZeroIf_fst (r : Bool) : (respondZeroIf r s).fst = s.fst := by
  simp only [respondZeroIf]; split <;> rfl
@[simp] theorem respondZeroIf_run (r : Bool) : (respondZeroIf r s).run = s.run := by
  simp only [respondZeroIf]; split <;> rfl
@[simp] theorem respondZeroIf_i (r : Bool) : (respondZeroIf r s).i = s.i := by
  simp only [respondZeroIf]; split <;> rfl
@[simp] theorem respondZeroIf_fcode (r : Bool) : (respondZeroIf r s).fcode = s.fcode := by
  simp only [respondZeroIf]; split <;> rfl
@[simp] theorem respondZeroIf_rst (r : Bool) : (respondZeroIf r s).rst = s.rst := by
  simp only [respondZeroIf]; split <;> rfl
@[simp] theorem respondZeroIf_rsp (r : Bool) : (respondZeroIf r s).rsp = if r = true then some 0x00 else none := by
  simp only [respondZeroIf]; split <;> rfl
@[simp] theorem respondZeroIf_port (r : Bool) : (respondZeroIf r s).port = s.port := by
  simp only [respondZeroIf]; split <;> rfl
@[simp] theorem respondZeroIf_draws (r : Bool) : (respondZeroIf r s).draws = s.draws := by
  simp only [respondZeroIf]; split <;> rfl

end RespondZeroIf

/-! ## raiseFault -/

section RaiseFault
variable (s : State)

@[simp] theorem raiseFault_H (c : FaultCode) (r : Bool) : (raiseFault c r s).H = s.H := by
  simp only [raiseFault, respondZeroIf]; split <;> rfl
@[simp] theorem raiseFault_w (c : FaultCode) (r : Bool) : (raiseFault c r s).w = s.w := by
  simp only [raiseFault, respondZeroIf]; split <;> rfl
@[simp] theorem raiseFault_M (c : FaultCode) (r : Bool) : (raiseFault c r s).M = s.M := by
  simp only [raiseFault, respondZeroIf]; split <;> rfl
@[simp] theorem raiseFault_bitlen (c : FaultCode) (r : Bool) : (raiseFault c r s).bitlen = s.bitlen := by
  simp only [raiseFault, respondZeroIf]; split <;> rfl
@[simp] theorem raiseFault_lenovf (c : FaultCode) (r : Bool) : (raiseFault c r s).lenovf = s.lenovf := by
  simp only [raiseFault, respondZeroIf]; split <;> rfl
@[simp] theorem raiseFault_phase (c : FaultCode) (r : Bool) : (raiseFault c r s).phase = .fault := by
  simp only [raiseFault, respondZeroIf]; split <;> rfl
@[simp] theorem raiseFault_fst (c : FaultCode) (r : Bool) : (raiseFault c r s).fst = s.fst := by
  simp only [raiseFault, respondZeroIf]; split <;> rfl
@[simp] theorem raiseFault_run (c : FaultCode) (r : Bool) : (raiseFault c r s).run = s.run := by
  simp only [raiseFault, respondZeroIf]; split <;> rfl
@[simp] theorem raiseFault_i (c : FaultCode) (r : Bool) : (raiseFault c r s).i = s.i := by
  simp only [raiseFault, respondZeroIf]; split <;> rfl
@[simp] theorem raiseFault_fcode (c : FaultCode) (r : Bool) : (raiseFault c r s).fcode = c := by
  simp only [raiseFault, respondZeroIf]; split <;> rfl
@[simp] theorem raiseFault_rst (c : FaultCode) (r : Bool) : (raiseFault c r s).rst = s.rst := by
  simp only [raiseFault, respondZeroIf]; split <;> rfl
@[simp] theorem raiseFault_rsp (c : FaultCode) (r : Bool) : (raiseFault c r s).rsp = if r = true then some 0x00 else none := by
  simp only [raiseFault, respondZeroIf]; split <;> rfl
@[simp] theorem raiseFault_port (c : FaultCode) (r : Bool) : (raiseFault c r s).port = s.port := by
  simp only [raiseFault, respondZeroIf]; split <;> rfl
@[simp] theorem raiseFault_draws (c : FaultCode) (r : Bool) : (raiseFault c r s).draws = s.draws := by
  simp only [raiseFault, respondZeroIf]; split <;> rfl

end RaiseFault

/-! ## loadw -/

section Loadw
variable (s : State)

@[simp] theorem loadw_H : (loadw s).H = s.H := rfl
@[simp] theorem loadw_w : (loadw s).w = s.H := rfl
@[simp] theorem loadw_M : (loadw s).M = s.M := rfl
@[simp] theorem loadw_bitlen : (loadw s).bitlen = s.bitlen := rfl
@[simp] theorem loadw_lenovf : (loadw s).lenovf = s.lenovf := rfl
@[simp] theorem loadw_phase : (loadw s).phase = s.phase := rfl
@[simp] theorem loadw_fst : (loadw s).fst = s.fst := rfl
@[simp] theorem loadw_run : (loadw s).run = true := rfl
@[simp] theorem loadw_i : (loadw s).i = 0 := rfl
@[simp] theorem loadw_fcode : (loadw s).fcode = s.fcode := rfl
@[simp] theorem loadw_rst : (loadw s).rst = s.rst := rfl
@[simp] theorem loadw_rsp : (loadw s).rsp = s.rsp := rfl
@[simp] theorem loadw_port : (loadw s).port = s.port := rfl
@[simp] theorem loadw_draws : (loadw s).draws = s.draws := rfl

end Loadw

/-! ## roundStep -/

section RoundStep
variable (s : State)

@[simp] theorem roundStep_H (f : Word → Word → Word → Word) (g : BitVec 6 → Fin 16) : (roundStep f g s).H = s.H := rfl
@[simp] theorem roundStep_w (f : Word → Word → Word → Word) (g : BitVec 6 → Fin 16) : (roundStep f g s).w = roundCore (roundIndex s.i) (f s.w.b s.w.c s.w.d) (bufWord s.M (g (roundIndex s.i))) s.w := rfl
@[simp] theorem roundStep_M (f : Word → Word → Word → Word) (g : BitVec 6 → Fin 16) : (roundStep f g s).M = s.M := rfl
@[simp] theorem roundStep_bitlen (f : Word → Word → Word → Word) (g : BitVec 6 → Fin 16) : (roundStep f g s).bitlen = s.bitlen := rfl
@[simp] theorem roundStep_lenovf (f : Word → Word → Word → Word) (g : BitVec 6 → Fin 16) : (roundStep f g s).lenovf = s.lenovf := rfl
@[simp] theorem roundStep_phase (f : Word → Word → Word → Word) (g : BitVec 6 → Fin 16) : (roundStep f g s).phase = s.phase := rfl
@[simp] theorem roundStep_fst (f : Word → Word → Word → Word) (g : BitVec 6 → Fin 16) : (roundStep f g s).fst = s.fst := rfl
@[simp] theorem roundStep_run (f : Word → Word → Word → Word) (g : BitVec 6 → Fin 16) : (roundStep f g s).run = s.run := rfl
@[simp] theorem roundStep_i (f : Word → Word → Word → Word) (g : BitVec 6 → Fin 16) : (roundStep f g s).i = s.i + 1 := rfl
@[simp] theorem roundStep_fcode (f : Word → Word → Word → Word) (g : BitVec 6 → Fin 16) : (roundStep f g s).fcode = s.fcode := rfl
@[simp] theorem roundStep_rst (f : Word → Word → Word → Word) (g : BitVec 6 → Fin 16) : (roundStep f g s).rst = s.rst := rfl
@[simp] theorem roundStep_rsp (f : Word → Word → Word → Word) (g : BitVec 6 → Fin 16) : (roundStep f g s).rsp = s.rsp := rfl
@[simp] theorem roundStep_port (f : Word → Word → Word → Word) (g : BitVec 6 → Fin 16) : (roundStep f g s).port = s.port := rfl
@[simp] theorem roundStep_draws (f : Word → Word → Word → Word) (g : BitVec 6 → Fin 16) : (roundStep f g s).draws = s.draws := rfl

end RoundStep

/-! ## feedForward -/

section FeedForward
variable (s : State)

@[simp] theorem feedForward_H : (feedForward s).H = quadAdd s.H s.w := rfl
@[simp] theorem feedForward_w : (feedForward s).w = s.w := rfl
@[simp] theorem feedForward_M : (feedForward s).M = bufClear := rfl
@[simp] theorem feedForward_bitlen : (feedForward s).bitlen = s.bitlen := rfl
@[simp] theorem feedForward_lenovf : (feedForward s).lenovf = s.lenovf := rfl
@[simp] theorem feedForward_phase : (feedForward s).phase = s.phase := rfl
@[simp] theorem feedForward_fst : (feedForward s).fst = s.fst := rfl
@[simp] theorem feedForward_run : (feedForward s).run = false := rfl
@[simp] theorem feedForward_i : (feedForward s).i = s.i := rfl
@[simp] theorem feedForward_fcode : (feedForward s).fcode = s.fcode := rfl
@[simp] theorem feedForward_rst : (feedForward s).rst = s.rst := rfl
@[simp] theorem feedForward_rsp : (feedForward s).rsp = s.rsp := rfl
@[simp] theorem feedForward_port : (feedForward s).port = s.port := rfl
@[simp] theorem feedForward_draws : (feedForward s).draws = s.draws := rfl

end FeedForward

/-! ## startMessage -/

section StartMessage
variable (s : State)

@[simp] theorem startMessage_H : (startMessage s).H = iv := rfl
@[simp] theorem startMessage_w : (startMessage s).w = s.w := rfl
@[simp] theorem startMessage_M : (startMessage s).M = bufClear := rfl
@[simp] theorem startMessage_bitlen : (startMessage s).bitlen = 0 := rfl
@[simp] theorem startMessage_lenovf : (startMessage s).lenovf = false := rfl
@[simp] theorem startMessage_phase : (startMessage s).phase = .absorb := rfl
@[simp] theorem startMessage_fst : (startMessage s).fst = .terminatorPlaced := rfl
@[simp] theorem startMessage_run : (startMessage s).run = s.run := rfl
@[simp] theorem startMessage_i : (startMessage s).i = s.i := rfl
@[simp] theorem startMessage_fcode : (startMessage s).fcode = s.fcode := rfl
@[simp] theorem startMessage_rst : (startMessage s).rst = s.rst := rfl
@[simp] theorem startMessage_rsp : (startMessage s).rsp = none := rfl
@[simp] theorem startMessage_port : (startMessage s).port = s.port := rfl
@[simp] theorem startMessage_draws : (startMessage s).draws = s.draws := rfl

end StartMessage

/-! ## absorbByte -/

section AbsorbByte
variable (s : State)

@[simp] theorem absorbByte_H (b : Byte) : (absorbByte b s).H = s.H := by
  simp only [absorbByte]; split <;> rfl
@[simp] theorem absorbByte_w (b : Byte) : (absorbByte b s).w = if fillPointer s.bitlen = 63 then s.H else s.w := by
  simp only [absorbByte]; split <;> rfl
@[simp] theorem absorbByte_M (b : Byte) : (absorbByte b s).M = bufOrByte (fillPointer s.bitlen) b s.M := by
  simp only [absorbByte]; split <;> rfl
@[simp] theorem absorbByte_bitlen (b : Byte) : (absorbByte b s).bitlen = s.bitlen + 8 := by
  simp only [absorbByte]; split <;> rfl
@[simp] theorem absorbByte_lenovf (b : Byte) : (absorbByte b s).lenovf = lenovfAfterAbsorb s.bitlen s.lenovf := by
  simp only [absorbByte]; split <;> rfl
@[simp] theorem absorbByte_phase (b : Byte) : (absorbByte b s).phase = s.phase := by
  simp only [absorbByte]; split <;> rfl
@[simp] theorem absorbByte_fst (b : Byte) : (absorbByte b s).fst = s.fst := by
  simp only [absorbByte]; split <;> rfl
@[simp] theorem absorbByte_run (b : Byte) : (absorbByte b s).run = if fillPointer s.bitlen = 63 then true else s.run := by
  simp only [absorbByte]; split <;> rfl
@[simp] theorem absorbByte_i (b : Byte) : (absorbByte b s).i = if fillPointer s.bitlen = 63 then 0 else s.i := by
  simp only [absorbByte]; split <;> rfl
@[simp] theorem absorbByte_fcode (b : Byte) : (absorbByte b s).fcode = s.fcode := by
  simp only [absorbByte]; split <;> rfl
@[simp] theorem absorbByte_rst (b : Byte) : (absorbByte b s).rst = s.rst := by
  simp only [absorbByte]; split <;> rfl
@[simp] theorem absorbByte_rsp (b : Byte) : (absorbByte b s).rsp = none := by
  simp only [absorbByte]; split <;> rfl
@[simp] theorem absorbByte_port (b : Byte) : (absorbByte b s).port = s.port := by
  simp only [absorbByte]; split <;> rfl
@[simp] theorem absorbByte_draws (b : Byte) : (absorbByte b s).draws = s.draws := by
  simp only [absorbByte]; split <;> rfl

end AbsorbByte

/-! ## placeTerminator -/

section PlaceTerminator
variable (s : State)

@[simp] theorem placeTerminator_H : (placeTerminator s).H = s.H := rfl
@[simp] theorem placeTerminator_w : (placeTerminator s).w = s.w := rfl
@[simp] theorem placeTerminator_M : (placeTerminator s).M = bufOrByte (fillPointer s.bitlen) 0x80 s.M := rfl
@[simp] theorem placeTerminator_bitlen : (placeTerminator s).bitlen = s.bitlen := rfl
@[simp] theorem placeTerminator_lenovf : (placeTerminator s).lenovf = s.lenovf := rfl
@[simp] theorem placeTerminator_phase : (placeTerminator s).phase = .final := rfl
@[simp] theorem placeTerminator_fst : (placeTerminator s).fst = .terminatorPlaced := rfl
@[simp] theorem placeTerminator_run : (placeTerminator s).run = s.run := rfl
@[simp] theorem placeTerminator_i : (placeTerminator s).i = s.i := rfl
@[simp] theorem placeTerminator_fcode : (placeTerminator s).fcode = s.fcode := rfl
@[simp] theorem placeTerminator_rst : (placeTerminator s).rst = s.rst := rfl
@[simp] theorem placeTerminator_rsp : (placeTerminator s).rsp = none := rfl
@[simp] theorem placeTerminator_port : (placeTerminator s).port = s.port := rfl
@[simp] theorem placeTerminator_draws : (placeTerminator s).draws = s.draws := rfl

end PlaceTerminator

/-! ## dispatchLengthBlock -/

section DispatchLengthBlock
variable (s : State)

@[simp] theorem dispatchLengthBlock_H : (dispatchLengthBlock s).H = s.H := rfl
@[simp] theorem dispatchLengthBlock_w : (dispatchLengthBlock s).w = s.H := rfl
@[simp] theorem dispatchLengthBlock_M : (dispatchLengthBlock s).M = storeLength s.bitlen s.M := rfl
@[simp] theorem dispatchLengthBlock_bitlen : (dispatchLengthBlock s).bitlen = s.bitlen := rfl
@[simp] theorem dispatchLengthBlock_lenovf : (dispatchLengthBlock s).lenovf = s.lenovf := rfl
@[simp] theorem dispatchLengthBlock_phase : (dispatchLengthBlock s).phase = s.phase := rfl
@[simp] theorem dispatchLengthBlock_fst : (dispatchLengthBlock s).fst = .lengthDispatched := rfl
@[simp] theorem dispatchLengthBlock_run : (dispatchLengthBlock s).run = true := rfl
@[simp] theorem dispatchLengthBlock_i : (dispatchLengthBlock s).i = 0 := rfl
@[simp] theorem dispatchLengthBlock_fcode : (dispatchLengthBlock s).fcode = s.fcode := rfl
@[simp] theorem dispatchLengthBlock_rst : (dispatchLengthBlock s).rst = s.rst := rfl
@[simp] theorem dispatchLengthBlock_rsp : (dispatchLengthBlock s).rsp = s.rsp := rfl
@[simp] theorem dispatchLengthBlock_port : (dispatchLengthBlock s).port = s.port := rfl
@[simp] theorem dispatchLengthBlock_draws : (dispatchLengthBlock s).draws = s.draws := rfl

end DispatchLengthBlock

/-! ## padFirst -/

section PadFirst
variable (s : State)

@[simp] theorem padFirst_H : (padFirst s).H = s.H := by
  simp only [padFirst]; split <;> rfl
@[simp] theorem padFirst_w : (padFirst s).w = s.H := by
  simp only [padFirst]; split <;> rfl
@[simp] theorem padFirst_M : (padFirst s).M = if fillPointer s.bitlen ≥ 56 then s.M else storeLength s.bitlen s.M := by
  simp only [padFirst]; split <;> rfl
@[simp] theorem padFirst_bitlen : (padFirst s).bitlen = s.bitlen := by
  simp only [padFirst]; split <;> rfl
@[simp] theorem padFirst_lenovf : (padFirst s).lenovf = s.lenovf := by
  simp only [padFirst]; split <;> rfl
@[simp] theorem padFirst_phase : (padFirst s).phase = s.phase := by
  simp only [padFirst]; split <;> rfl
@[simp] theorem padFirst_fst : (padFirst s).fst = if fillPointer s.bitlen ≥ 56 then .spillDispatched else .lengthDispatched := by
  simp only [padFirst]; split <;> rfl
@[simp] theorem padFirst_run : (padFirst s).run = true := by
  simp only [padFirst]; split <;> rfl
@[simp] theorem padFirst_i : (padFirst s).i = 0 := by
  simp only [padFirst]; split <;> rfl
@[simp] theorem padFirst_fcode : (padFirst s).fcode = s.fcode := by
  simp only [padFirst]; split <;> rfl
@[simp] theorem padFirst_rst : (padFirst s).rst = s.rst := by
  simp only [padFirst]; split <;> rfl
@[simp] theorem padFirst_rsp : (padFirst s).rsp = s.rsp := by
  simp only [padFirst]; split <;> rfl
@[simp] theorem padFirst_port : (padFirst s).port = s.port := by
  simp only [padFirst]; split <;> rfl
@[simp] theorem padFirst_draws : (padFirst s).draws = s.draws := by
  simp only [padFirst]; split <;> rfl

end PadFirst

/-! ## padLast -/

section PadLast
variable (s : State)

@[simp] theorem padLast_H : (padLast s).H = s.H := rfl
@[simp] theorem padLast_w : (padLast s).w = s.w := rfl
@[simp] theorem padLast_M : (padLast s).M = s.M := rfl
@[simp] theorem padLast_bitlen : (padLast s).bitlen = s.bitlen := rfl
@[simp] theorem padLast_lenovf : (padLast s).lenovf = s.lenovf := rfl
@[simp] theorem padLast_phase : (padLast s).phase = .done := rfl
@[simp] theorem padLast_fst : (padLast s).fst = .terminatorPlaced := rfl
@[simp] theorem padLast_run : (padLast s).run = s.run := rfl
@[simp] theorem padLast_i : (padLast s).i = s.i := rfl
@[simp] theorem padLast_fcode : (padLast s).fcode = s.fcode := rfl
@[simp] theorem padLast_rst : (padLast s).rst = s.rst := rfl
@[simp] theorem padLast_rsp : (padLast s).rsp = s.rsp := rfl
@[simp] theorem padLast_port : (padLast s).port = s.port := rfl
@[simp] theorem padLast_draws : (padLast s).draws = s.draws := rfl

end PadLast

/-! ## Whole results -/

/-- The response of a command that is not executed, as a whole state (R83, R204, R206). -/
theorem respondZeroIf_eq (r : Bool) (s : State) :
    respondZeroIf r s = { s with rsp := if r = true then some 0x00 else none } := by
  cases r <;> rfl

/-- Fault entry, as a whole state (R204). -/
theorem raiseFault_eq (c : FaultCode) (r : Bool) (s : State) :
    raiseFault c r s =
      { s with fcode := c, phase := .fault, rsp := if r = true then some 0x00 else none } := by
  cases r <;> rfl

/-! ## The reset input -/

/-- A step under reset in which the registers take their reset values (R230). -/
theorem underReset_effect {s : State} (h : Config.resetTakesEffect s.draws = true) :
    underReset s =
      { State.resetWith (Config.resetDatapath s.draws) with
        rst := true, port := s.port, draws := s.draws + 1 } := by
  simp [underReset, h]

/-- A step under reset in which the registers keep their values. -/
theorem underReset_held {s : State} (h : Config.resetTakesEffect s.draws = false) :
    underReset s = { s with rst := true, rsp := none, draws := s.draws + 1 } := by
  simp [underReset, h]

/-- Everything a step under reset can do. -/
theorem underReset_cases (s : State) :
    (∃ dp, underReset s = { State.resetWith dp with rst := true, port := s.port, draws := s.draws + 1 }) ∨
    underReset s = { s with rst := true, rsp := none, draws := s.draws + 1 } := by
  cases h : Config.resetTakesEffect s.draws
  · exact .inr (underReset_held h)
  · exact .inl ⟨_, underReset_effect h⟩

/-- Releasing reset when it is applied (R230). -/
theorem releaseReset_of_applied {s : State} (h : s.rst = true) :
    releaseReset s =
      { State.resetWith (Config.resetDatapath s.draws) with port := s.port, draws := s.draws + 1 } := by
  simp [releaseReset, h]

/-- Releasing reset when it is not applied changes nothing. -/
theorem releaseReset_of_released {s : State} (h : s.rst = false) : releaseReset s = noResponse s := by
  simp [releaseReset, h]

@[simp] theorem underReset_rst (s : State) : (underReset s).rst = true := by
  rcases underReset_cases s with ⟨dp, h⟩ | h <;> rw [h]

@[simp] theorem underReset_port (s : State) : (underReset s).port = s.port := by
  rcases underReset_cases s with ⟨dp, h⟩ | h <;> rw [h]

@[simp] theorem underReset_draws (s : State) : (underReset s).draws = s.draws + 1 := by
  rcases underReset_cases s with ⟨dp, h⟩ | h <;> rw [h]

@[simp] theorem underReset_rsp (s : State) : (underReset s).rsp = none := by
  rcases underReset_cases s with ⟨dp, h⟩ | h <;> rw [h]
  rfl

/-- Reset leaves `phase` alone or sets it to IDLE (R154). -/
theorem underReset_phase (s : State) : (underReset s).phase = s.phase ∨ (underReset s).phase = .idle := by
  rcases underReset_cases s with ⟨dp, h⟩ | h <;> rw [h]
  · exact .inr rfl
  · exact .inl rfl

@[simp] theorem releaseReset_rst (s : State) : (releaseReset s).rst = false := by
  cases h : s.rst <;> simp [releaseReset, h, State.resetWith]

@[simp] theorem releaseReset_port (s : State) : (releaseReset s).port = s.port := by
  cases h : s.rst <;> simp [releaseReset, h]

end Sys2Proof.Machine
end

