-- ==== Sys2Proof/Laws/Ops.lean ====
section
/-! SUPPORT. What each shared operation can do, said once: BUF in its two views, the fill pointer, the
acceptance of a command, the engine step and its row of the sequencer decode. -/

namespace Sys2Proof.Machine

/-! ## Outputs -/

theorem cmdReady_iff (s : State) :
    cmdReady s = true ↔ s.run = false ∧ s.phase ≠ .final ∧ s.rst = false := by
  simp [cmdReady, and_assoc]

theorem cmdReady_noResponse (s : State) : cmdReady (noResponse s) = cmdReady s := rfl

theorem cmdReady_port (s : State) (moves : List HostMove) :
    cmdReady { s with port := moves } = cmdReady s := rfl

theorem seqWord_port (s : State) (moves : List HostMove) :
    seqWord { s with port := moves } = seqWord s := rfl

/-! ## The sequencer decode -/

/-- The rows of R85 select the step that R155 names. -/
theorem decodeSeq_seqWord (s : State) : (decodeSeq (seqWord s)).toOption = selectedStep s := by
  have key : ∀ (phase : Phase) (fst : FinStage) (run : Bool) (i : BitVec 7),
      (decodeSeq (phase.code ++ fst.code ++ BitVec.ofBool run ++ i)).toOption =
        nextEngineStep phase fst run i := by
    intro phase fst run
    cases phase <;> cases fst <;> cases run <;> decide
  exact key s.phase s.fst s.run s.i

theorem decodeSeq_eq_ok_iff (s : State) (j : Instr) :
    decodeSeq (seqWord s) = .ok j ↔ selectedStep s = some j := by
  rw [← decodeSeq_seqWord]
  cases decodeSeq (seqWord s) <;> simp [Except.toOption]

theorem stepEnabled_iff (j : Instr) (s : State) :
    stepEnabled j s = true ↔ s.rst = false ∧ selectedStep s = some j := by
  rw [← decodeSeq_eq_ok_iff]
  unfold stepEnabled
  cases decodeSeq (seqWord s) <;> simp

/-! ## Taking an engine step -/

theorem takeEngineStep_enabled {j : Instr} {effect : State → State} {s : State}
    (hr : s.rst = false) (hs : selectedStep s = some j) :
    takeEngineStep j effect s = .next (noResponse (effect s)) := by
  simp [takeEngineStep, (stepEnabled_iff j s).2 ⟨hr, hs⟩]

theorem takeEngineStep_next {j : Instr} {effect : State → State} {s t : State}
    (h : takeEngineStep j effect s = .next t) :
    s.rst = false ∧ selectedStep s = some j ∧ t = noResponse (effect s) := by
  unfold takeEngineStep at h
  split at h
  · rename_i he
    obtain ⟨hr, hs⟩ := (stepEnabled_iff j s).1 he
    exact ⟨hr, hs, by cases h; rfl⟩
  · cases h

/-! ## Accepting a command -/

section Accept
variable {responds legal : Bool} {allowed : Phase → Bool} {effect : State → State} {s t : State}

theorem acceptCommand_inFault (hc : cmdReady s = true) (hp : s.phase = .fault) :
    acceptCommand responds legal allowed effect s = .next (respondZeroIf responds s) := by
  simp [acceptCommand, hc, hp]

theorem acceptCommand_illegal (hc : cmdReady s = true) (hp : s.phase ≠ .fault) :
    acceptCommand responds false allowed effect s = .next (raiseFault .illegalCmd responds s) := by
  simp [acceptCommand, hc, hp]

theorem acceptCommand_outOfPhase (hc : cmdReady s = true) (hp : s.phase ≠ .fault)
    (ha : allowed s.phase = false) :
    acceptCommand responds true allowed effect s = .next (raiseFault .seqErr responds s) := by
  simp [acceptCommand, hc, hp, ha]

theorem acceptCommand_executes (hc : cmdReady s = true) (hp : s.phase ≠ .fault)
    (ha : allowed s.phase = true) :
    acceptCommand responds true allowed effect s = .next (effect s) := by
  simp [acceptCommand, hc, hp, ha]

/-- Everything the acceptance of a command can do. -/
theorem acceptCommand_next (h : acceptCommand responds legal allowed effect s = .next t) :
    cmdReady s = true ∧
      ((s.phase = .fault ∧ t = respondZeroIf responds s) ∨
       (s.phase ≠ .fault ∧ legal = false ∧ t = raiseFault .illegalCmd responds s) ∨
       (s.phase ≠ .fault ∧ legal = true ∧ allowed s.phase = false ∧ t = raiseFault .seqErr responds s) ∨
       (s.phase ≠ .fault ∧ legal = true ∧ allowed s.phase = true ∧ t = effect s)) := by
  unfold acceptCommand at h
  cases hc : cmdReady s <;> simp only [hc, Bool.not_false, Bool.not_true, if_true] at h
  · cases h
  · refine ⟨rfl, ?_⟩
    by_cases hp : s.phase = .fault
    · simp [hp] at h; exact .inl ⟨hp, h.symm⟩
    · cases legal <;> cases ha : allowed s.phase <;> simp [hp, ha] at h
      · exact .inr (.inl ⟨hp, rfl, h.symm⟩)
      · exact .inr (.inl ⟨hp, rfl, h.symm⟩)
      · exact .inr (.inr (.inl ⟨hp, rfl, rfl, h.symm⟩))
      · exact .inr (.inr (.inr ⟨hp, rfl, rfl, h.symm⟩))

/-- A command is never refused while `cmd_ready` = 1. -/
theorem acceptCommand_ready (hc : cmdReady s = true) :
    ∃ t, acceptCommand responds legal allowed effect s = .next t := by
  unfold acceptCommand
  simp only [hc, Bool.not_true, Bool.false_eq_true, if_false]
  split
  · exact ⟨_, rfl⟩
  · split
    · exact ⟨_, rfl⟩
    · split
      · exact ⟨_, rfl⟩
      · exact ⟨_, rfl⟩

end Accept

/-! ## BUF in its two views -/

@[simp] theorem bufWord_set_same (M : Block) (n : Nat) (hn : n < 16) (v : Word) :
    bufWord (M.set n v hn) ⟨n, hn⟩ = v := by
  simp [bufWord]

theorem bufWord_set_other (M : Block) (n : Nat) (hn : n < 16) (v : Word) (g : Fin 16) (h : g.val ≠ n) :
    bufWord (M.set n v hn) g = bufWord M g := by
  simp [bufWord, Ne.symm h]

@[simp] theorem bufWord_bufClear (g : Fin 16) : bufWord bufClear g = 0 := by
  simp [bufWord, bufClear]

/-- The byte view is a byte of the word view (R52). -/
theorem bufByte_eq (M : Block) (q : BitVec 6) (h : q.toNat / 4 < 16) :
    bufByte M q = byteOfWord (bufWord M ⟨q.toNat / 4, h⟩) q.toNat := rfl

@[simp] theorem byteOfWord_zero (n : Nat) : byteOfWord 0 n = 0 := by
  simp [byteOfWord]

@[simp] theorem bufByte_bufClear (q : BitVec 6) : bufByte bufClear q = 0 := by
  have h : q.toNat / 4 < 16 := by have := q.isLt; omega
  rw [bufByte_eq _ _ h, bufWord_bufClear, byteOfWord_zero]

theorem byteOfWord_or (x y : Word) (n : Nat) :
    byteOfWord (x ||| y) n = byteOfWord x n ||| byteOfWord y n := by
  simp [byteOfWord, BitVec.extractLsb'_or]

/-- A byte lane holds its byte, and zero elsewhere. -/
theorem byteOfWord_laneOfByte (v : Byte) (n m : Nat) :
    byteOfWord (laneOfByte v n) m = if m % 4 = n % 4 then v else 0 := by
  have hn : n % 4 < 4 := Nat.mod_lt _ (by decide)
  have hm : m % 4 < 4 := Nat.mod_lt _ (by decide)
  unfold byteOfWord laneOfByte
  generalize n % 4 = a at *
  generalize m % 4 = b at *
  ext k hk
  split
  · subst_vars
    simp only [BitVec.getElem_extractLsb', BitVec.getLsbD_shiftLeft, BitVec.truncate_eq_setWidth,
      BitVec.getLsbD_setWidth]
    simp [show 8 * b + k < 32 from by omega, show k < 32 from by omega, BitVec.getLsbD_eq_getElem hk]
  · simp only [BitVec.getElem_extractLsb', BitVec.getLsbD_shiftLeft, BitVec.truncate_eq_setWidth,
      BitVec.getLsbD_setWidth]
    by_cases hlt : 8 * b + k < 8 * a
    · simp [hlt]
    · rw [BitVec.getLsbD_of_ge v _ (by omega)]
      simp

/-- `BufOrByte` ORs its byte into byte `q` and keeps every other byte (R53). -/
theorem bufByte_bufOrByte (M : Block) (p q : BitVec 6) (v : Byte) :
    bufByte (bufOrByte p v M) q = if q = p then bufByte M q ||| v else bufByte M q := by
  have hp : p.toNat / 4 < 16 := by have := p.isLt; omega
  have hq : q.toNat / 4 < 16 := by have := q.isLt; omega
  rw [bufByte_eq _ _ hq, bufByte_eq _ _ hq]
  by_cases hw : q.toNat / 4 = p.toNat / 4
  · have e : bufWord (bufOrByte p v M) ⟨q.toNat / 4, hq⟩ =
        bufWord M ⟨q.toNat / 4, hq⟩ ||| laneOfByte v p.toNat := by
      simp [bufWord, bufOrByte, hw]
    rw [e, byteOfWord_or, byteOfWord_laneOfByte]
    by_cases hqp : q = p
    · simp [hqp]
    · have : q.toNat ≠ p.toNat := fun h => hqp (BitVec.eq_of_toNat_eq h)
      have hm : q.toNat % 4 ≠ p.toNat % 4 := by omega
      simp [hqp, hm]
  · have hqp : q ≠ p := fun h => hw (by rw [h])
    rw [show bufWord (bufOrByte p v M) ⟨q.toNat / 4, hq⟩ = bufWord M ⟨q.toNat / 4, hq⟩ from
      bufWord_set_other _ _ hp _ _ hw]
    simp [hqp]

/-- The length words lie in bytes 56 to 63; every byte below is kept (R114, R115). -/
theorem bufByte_storeLength_low (bitlen : Word) (M : Block) (q : BitVec 6) (h : q.toNat < 56) :
    bufByte (storeLength bitlen M) q = bufByte M q := by
  have hq : q.toNat / 4 < 16 := by omega
  rw [bufByte_eq _ _ hq, bufByte_eq _ _ hq]
  have h14 : q.toNat / 4 ≠ 14 := by omega
  have h15 : q.toNat / 4 ≠ 15 := by omega
  rw [storeLength, bufWord_set_other _ _ _ _ _ h15, bufWord_set_other _ _ _ _ _ h14]

@[simp] theorem bufWord_storeLength_14 (bitlen : Word) (M : Block) :
    bufWord (storeLength bitlen M) 14 = bitlen := by
  simp [bufWord, storeLength]

@[simp] theorem bufWord_storeLength_15 (bitlen : Word) (M : Block) :
    bufWord (storeLength bitlen M) 15 = 0 := by
  simp [bufWord, storeLength]

/-! ## The fill pointer -/

theorem fillPointer_toNat (bitlen : Word) : (fillPointer bitlen).toNat = bitlen.toNat / 8 % 64 := by
  simp [fillPointer, BitVec.extractLsb'_toNat, Nat.shiftRight_eq_div_pow]

/-- One byte more moves the fill pointer on by one, modulo 64 (R25). -/
theorem fillPointer_add_eight (bitlen : Word) : fillPointer (bitlen + 8) = fillPointer bitlen + 1 := by
  apply BitVec.eq_of_toNat_eq
  rw [fillPointer_toNat, BitVec.toNat_add, BitVec.toNat_add, fillPointer_toNat]
  simp
  omega

end Sys2Proof.Machine
end

