-- ==== Sys2Proof/Laws/PerInstr.lean ====
section
/-! SUPPORT. Statements made once for every instruction. -/

namespace Sys2Proof.Laws.EncodeMatchesRow

/-- The format, match and mask of an instruction's row in spec/opcode_table.json (30_encoding.md R81, R85). -/
def row : Instr → Bool × Nat × Nat
  | .init => (true, 0x100, 0xfff)
  | .absorb _ => (true, 0x200, 0xf00)
  | .final => (true, 0x300, 0xfff)
  | .rdhex _ => (true, 0x400, 0xfe0)
  | .rddig _ => (true, 0x500, 0xff0)
  | .rdstat => (true, 0x600, 0xfff)
  | .roundF => (false, 0x0080, 0x00f0)
  | .roundG => (false, 0x0090, 0x00f0)
  | .roundH => (false, 0x00a0, 0x00f0)
  | .roundI => (false, 0x00b0, 0x00f0)
  | .feedfwd => (false, 0x00c0, 0x00ff)
  | .padstep0 => (false, 0x0800, 0x1f80)
  | .padstep1 => (false, 0x0900, 0x1f80)
  | .padstep2 => (false, 0x0a00, 0x1f80)

/-- A word is in the format of a row (`true` is CMD12) and matches it under the mask. -/
def matchesRow (r : Bool × Nat × Nat) : Encoded → Bool
  | .cmd12 cmd => r.1 && cmd &&& BitVec.ofNat 12 r.2.2 == BitVec.ofNat 12 r.2.1
  | .seq13 seq => !r.1 && seq &&& BitVec.ofNat 13 r.2.2 == BitVec.ofNat 13 r.2.1

/-- The encoder writes the word of a well-formed instruction in its own row of the opcode table. -/
def Statement (i : Instr) : Prop := i.wellFormed = true → matchesRow (row i) (encode i) = true

theorem init : Statement .init := by unfold Statement; decide

theorem absorb (b : Byte) : Statement (.absorb b) := by
  have h : ∀ b : Byte, matchesRow (row (.absorb b)) (encode (.absorb b)) = true := by decide +kernel
  exact fun _ => h b

theorem final : Statement .final := by unfold Statement; decide

theorem rdhex (k : Byte) : Statement (.rdhex k) := by
  have h : ∀ k : Byte, (Instr.rdhex k).wellFormed = true →
      matchesRow (row (.rdhex k)) (encode (.rdhex k)) = true := by decide +kernel
  exact h k

theorem rddig (j : Byte) : Statement (.rddig j) := by
  have h : ∀ j : Byte, (Instr.rddig j).wellFormed = true →
      matchesRow (row (.rddig j)) (encode (.rddig j)) = true := by decide +kernel
  exact h j

theorem rdstat : Statement .rdstat := by unfold Statement; decide
theorem roundF : Statement .roundF := by unfold Statement; decide
theorem roundG : Statement .roundG := by unfold Statement; decide
theorem roundH : Statement .roundH := by unfold Statement; decide
theorem roundI : Statement .roundI := by unfold Statement; decide
theorem feedfwd : Statement .feedfwd := by unfold Statement; decide
theorem padstep0 : Statement .padstep0 := by unfold Statement; decide
theorem padstep1 : Statement .padstep1 := by unfold Statement; decide
theorem padstep2 : Statement .padstep2 := by unfold Statement; decide

end Sys2Proof.Laws.EncodeMatchesRow
end

