-- ==== Sys2Proof/Laws/Step.lean ====
section
/-! SUPPORT. What one step can do, said once: which of the HOST and the ENGINE moves, and what each engine
step leaves. -/

namespace Sys2Proof.Machine

/-! ## Engine steps -/

/-- The effect of each engine step on the state (R114 to R116, R135 to R139); nothing for a command. -/
def engineEffect : Instr → State → State
  | .roundF => roundStep nonlinF indexF
  | .roundG => roundStep nonlinG indexG
  | .roundH => roundStep nonlinH indexH
  | .roundI => roundStep nonlinI indexI
  | .feedfwd => feedForward
  | .padstep0 => padFirst
  | .padstep1 => dispatchLengthBlock
  | .padstep2 => padLast
  | .init => id
  | .absorb _ => id
  | .final => id
  | .rdhex _ => id
  | .rddig _ => id
  | .rdstat => id

/-- The eight steps of the ENGINE (R85). -/
def isEngineStep : Instr → Bool
  | .roundF => true
  | .roundG => true
  | .roundH => true
  | .roundI => true
  | .feedfwd => true
  | .padstep0 => true
  | .padstep1 => true
  | .padstep2 => true
  | .init => false
  | .absorb _ => false
  | .final => false
  | .rdhex _ => false
  | .rddig _ => false
  | .rdstat => false

/-- The sequencer selects engine steps only (R85). -/
theorem selectedStep_isEngineStep {s : State} {j : Instr} (h : selectedStep s = some j) :
    isEngineStep j = true := by
  unfold selectedStep nextEngineStep at h
  repeat' split at h
  all_goals first | (cases h; rfl) | cases h

theorem exec_engineStep {s : State} {j : Instr} (h : isEngineStep j = true) :
    exec j s = takeEngineStep j (engineEffect j) s := by
  cases j <;> first | rfl | cases h

/-- A selected engine step is taken, with its effect and no response. -/
theorem exec_selected {s : State} {j : Instr} (hr : s.rst = false) (hs : selectedStep s = some j) :
    exec j s = .next (noResponse (engineEffect j s)) := by
  rw [exec_engineStep (selectedStep_isEngineStep hs), takeEngineStep_enabled hr hs]

theorem engineStep_selected {s : State} {j : Instr} (hs : selectedStep s = some j) :
    engineStep s = exec j s := by
  simp [engineStep, (decodeSeq_eq_ok_iff s j).2 hs]

theorem engineStep_noRule {s : State} (hs : selectedStep s = none) : engineStep s = .refused .noRule := by
  unfold engineStep
  cases h : decodeSeq (seqWord s) with
  | ok j => rw [(decodeSeq_eq_ok_iff s j).1 h] at hs; cases hs
  | error e => rfl

/-- The only busy states in which the sequencer selects nothing: `run` = 1 with `i` above 64 (U7). -/
theorem selectedStep_eq_none {s : State} (h : selectedStep s = none) (hb : cmdReady s = false)
    (hr : s.rst = false) : s.run = true ∧ 64 < s.i := by
  unfold selectedStep nextEngineStep at h
  cases hrun : s.run
  · have hp : s.phase = .final := by
      by_contra hp
      rw [(cmdReady_iff s).2 ⟨hrun, hp, hr⟩] at hb
      cases hb
    cases hf : s.fst <;> simp [hrun, hp, hf] at h
  · refine ⟨rfl, ?_⟩
    simp only [hrun, if_true] at h
    repeat' split at h
    all_goals first | (cases h; done) | bv_omega

/-- An engine step neither reads nor writes the port. -/
theorem engineEffect_port (j : Instr) (s : State) (moves : List HostMove) :
    engineEffect j { s with port := moves } = { engineEffect j s with port := moves } := by
  cases j <;> first | rfl | (simp only [engineEffect, padFirst]; split <;> rfl)

@[simp] theorem engineEffect_rst (j : Instr) (s : State) : (engineEffect j s).rst = s.rst := by
  cases j <;> simp [engineEffect]

@[simp] theorem engineEffect_bitlen (j : Instr) (s : State) : (engineEffect j s).bitlen = s.bitlen := by
  cases j <;> simp [engineEffect]

@[simp] theorem engineEffect_lenovf (j : Instr) (s : State) : (engineEffect j s).lenovf = s.lenovf := by
  cases j <;> simp [engineEffect]

@[simp] theorem engineEffect_fcode (j : Instr) (s : State) : (engineEffect j s).fcode = s.fcode := by
  cases j <;> simp [engineEffect]

@[simp] theorem engineEffect_draws (j : Instr) (s : State) : (engineEffect j s).draws = s.draws := by
  cases j <;> simp [engineEffect]

/-! ## Steps without a transfer -/

theorem withoutCommand_reset {s : State} (h : s.rst = true) : withoutCommand s = .next (underReset s) := by
  simp [withoutCommand, h]

theorem withoutCommand_held {s : State} (h : cmdReady s = true) :
    withoutCommand s = .next (noResponse s) := by
  simp [withoutCommand, h, ((cmdReady_iff s).1 h).2.2]

theorem withoutCommand_engine {s : State} (hr : s.rst = false) (hc : cmdReady s = false) :
    withoutCommand s = engineStep s := by
  simp [withoutCommand, hr, hc]

/-! ## The step, by the HOST's next move -/

theorem step_nil {s : State} (h : s.port = []) : step s = withoutCommand s := by
  simp [step, takeStep, h]

theorem step_pause {s : State} {rest : List HostMove} (h : s.port = .pause :: rest) :
    step s = withoutCommand { s with port := rest } := by
  simp [step, takeStep, h]

theorem step_applyReset {s : State} {rest : List HostMove} (h : s.port = .applyReset :: rest) :
    step s = .next (underReset { s with port := rest }) := by
  simp [step, takeStep, h]

theorem step_releaseReset {s : State} {rest : List HostMove} (h : s.port = .releaseReset :: rest) :
    step s = .next (releaseReset { s with port := rest }) := by
  simp [step, takeStep, h]

theorem step_cmd_ready {s : State} {cmd : BitVec 12} {rest : List HostMove}
    (h : s.port = .cmd cmd :: rest) (hc : cmdReady s = true) :
    step s = acceptWord cmd { s with port := rest } := by
  simp [step, takeStep, h, hc]

theorem step_cmd_busy {s : State} {cmd : BitVec 12} {rest : List HostMove}
    (h : s.port = .cmd cmd :: rest) (hc : cmdReady s = false) : step s = withoutCommand s := by
  simp [step, takeStep, h, hc]

/-- Without a reset move and with `cmd_ready` = 0 or nothing presented, a step is `withoutCommand` with the
port as the waiting leaves it. -/
theorem step_wait {s : State} (hn : noResetNow s.port = true)
    (hc : cmdReady s = false ∨ ∀ cmd rest, s.port ≠ .cmd cmd :: rest) :
    step s = withoutCommand { s with port := portAfterWait s.port } := by
  obtain ⟨H, w, M, bitlen, lenovf, phase, fst, run, i, fcode, rst, rsp, port, draws⟩ := s
  match port with
  | [] => rw [step_nil rfl]; rfl
  | .pause :: rest => rw [step_pause rfl]; rfl
  | .applyReset :: rest => simp [noResetNow] at hn
  | .releaseReset :: rest => simp [noResetNow] at hn
  | .cmd cmd :: rest =>
    rcases hc with hc | hc
    · rw [step_cmd_busy rfl hc]; rfl
    · exact absurd rfl (hc cmd rest)

/-- Everything one step can do when it answers a next state. -/
theorem step_cases {s t : State} (h : step s = .next t) :
    (∃ rest, s.port = .applyReset :: rest ∧ t = underReset { s with port := rest }) ∨
    (∃ rest, s.port = .releaseReset :: rest ∧ t = releaseReset { s with port := rest }) ∨
    (∃ cmd rest, s.port = .cmd cmd :: rest ∧ cmdReady s = true ∧
      acceptWord cmd { s with port := rest } = .next t) ∨
    (s.rst = true ∧ noResetNow s.port = true ∧ t = underReset { s with port := portAfterWait s.port }) ∨
    (cmdReady s = true ∧ noResetNow s.port = true ∧
      t = noResponse { s with port := portAfterWait s.port }) ∨
    (∃ j, s.rst = false ∧ cmdReady s = false ∧ noResetNow s.port = true ∧ selectedStep s = some j ∧
      t = noResponse (engineEffect j { s with port := portAfterWait s.port })) := by
  have wait : ∀ moves, noResetNow s.port = true →
      withoutCommand { s with port := moves } = .next t → moves = portAfterWait s.port →
      (s.rst = true ∧ noResetNow s.port = true ∧ t = underReset { s with port := portAfterWait s.port }) ∨
      (cmdReady s = true ∧ noResetNow s.port = true ∧
        t = noResponse { s with port := portAfterWait s.port }) ∨
      (∃ j, s.rst = false ∧ cmdReady s = false ∧ noResetNow s.port = true ∧ selectedStep s = some j ∧
        t = noResponse (engineEffect j { s with port := portAfterWait s.port })) := by
    intro moves hn hw hm
    by_cases hr : s.rst = true
    · rw [withoutCommand_reset (by exact hr)] at hw
      cases hw
      exact .inl ⟨hr, hn, by rw [hm]⟩
    by_cases hc : cmdReady s = true
    · rw [withoutCommand_held (by exact hc)] at hw
      cases hw
      exact .inr (.inl ⟨hc, hn, by rw [hm]⟩)
    · have hh : s.rst = false ∧ cmdReady s = false := ⟨by simpa using hr, by simpa using hc⟩
      rw [withoutCommand_engine (by exact hh.1) (by exact hh.2)] at hw
      cases hs : selectedStep s with
      | none => rw [engineStep_noRule (by exact hs)] at hw; cases hw
      | some j =>
        rw [engineStep_selected (by exact hs), exec_selected (by exact hh.1) (by exact hs)] at hw
        cases hw
        exact .inr (.inr ⟨j, hh.1, hh.2, hn, rfl, by rw [hm]⟩)
  match hp : s.port with
  | [] =>
    rw [step_nil hp] at h
    have := wait [] (by rw [hp]; rfl) (by rw [← h]; congr 1; cases s; cases hp; rfl) (by rw [hp]; rfl)
    rw [hp] at this
    exact .inr (.inr (.inr this))
  | .pause :: rest =>
    rw [step_pause hp] at h
    have := wait rest (by rw [hp]; rfl) h (by rw [hp]; rfl)
    rw [hp] at this
    exact .inr (.inr (.inr this))
  | .applyReset :: rest =>
    rw [step_applyReset hp] at h
    exact .inl ⟨rest, rfl, by cases h; rfl⟩
  | .releaseReset :: rest =>
    rw [step_releaseReset hp] at h
    exact .inr (.inl ⟨rest, rfl, by cases h; rfl⟩)
  | .cmd cmd :: rest =>
    cases hc : cmdReady s
    · rw [step_cmd_busy hp hc] at h
      have := wait (.cmd cmd :: rest) (by rw [hp]; rfl)
        (by rw [← h]; congr 1; cases s; cases hp; rfl) (by rw [hp]; rfl)
      rw [hp, hc] at this
      exact .inr (.inr (.inr this))
    · rw [step_cmd_ready hp hc] at h
      exact .inr (.inr (.inl ⟨cmd, rest, rfl, rfl, h⟩))

/-! ## Accepting a word -/

/-- The effect of each command that is executed (R112, R113, R151, R172, R173, R185); nothing for an engine
step. -/
def commandEffect : Instr → State → State
  | .init => startMessage
  | .absorb b => absorbByte b
  | .final => placeTerminator
  | .rdhex k => fun s => respond (hexChar s.H (hexIndex k)) s
  | .rddig j => fun s => respond (digestByte s.H (digIndex j)) s
  | .rdstat => fun s => respond (statusByte s) s
  | .roundF => id
  | .roundG => id
  | .roundH => id
  | .roundI => id
  | .feedfwd => id
  | .padstep0 => id
  | .padstep1 => id
  | .padstep2 => id

/-- The phases in which each command executes (R88, R203). -/
def allowedPhase : Instr → Phase → Bool
  | .init => fun p => p == .idle || p == .done
  | .absorb _ => fun p => p == .absorb
  | .final => fun p => p == .absorb
  | .rdhex _ => fun p => p == .done
  | .rddig _ => fun p => p == .done
  | .rdstat => fun p => p != .final
  | .roundF => fun _ => false
  | .roundG => fun _ => false
  | .roundH => fun _ => false
  | .roundI => fun _ => false
  | .feedfwd => fun _ => false
  | .padstep0 => fun _ => false
  | .padstep1 => fun _ => false
  | .padstep2 => fun _ => false

/-- Whether a command produces a response byte: RDHEX, RDDIG, RDSTAT (R83). -/
def respondsInstr : Instr → Bool
  | .rdhex _ => true
  | .rddig _ => true
  | .rdstat => true
  | .init => false
  | .absorb _ => false
  | .final => false
  | .roundF => false
  | .roundG => false
  | .roundH => false
  | .roundI => false
  | .feedfwd => false
  | .padstep0 => false
  | .padstep1 => false
  | .padstep2 => false

/-- Every command but RDSTAT goes through the checks of R88. -/
theorem exec_command {i : Instr} (hi : isEngineStep i = false) (hs : i ≠ .rdstat) (s : State) :
    exec i s = acceptCommand (respondsInstr i) i.wellFormed (allowedPhase i) (commandEffect i) s := by
  cases i <;> first | rfl | (cases hi; done) | exact absurd rfl hs

theorem exec_rdstat {s : State} (hc : cmdReady s = true) :
    exec .rdstat s = .next (respond (statusByte s) s) := by
  simp [exec, execRdstat, hc]

theorem exec_rdstat_next {s t : State} (h : exec .rdstat s = .next t) :
    cmdReady s = true ∧ t = respond (statusByte s) s := by
  cases hc : cmdReady s
  · simp [exec, execRdstat, hc] at h
  · rw [exec_rdstat hc] at h
    exact ⟨rfl, by cases h; rfl⟩

/-- The command decoder gives commands only, with operands that the encoding admits (R86). -/
theorem decodeCmd_ok {cmd : BitVec 12} {i : Instr} (h : decodeCmd cmd = .ok i) :
    isEngineStep i = false ∧ i.wellFormed = true ∧ respondsInstr i = respondsOp (opOf cmd) := by
  unfold decodeCmd at h
  simp only at h
  repeat' split at h
  all_goals cases h
  all_goals refine ⟨rfl, ?_, ?_⟩
  all_goals first | rfl | simp_all [Instr.wellFormed, respondsInstr, respondsOp]

/-- Everything the acceptance of a word can do: no effect in phase FAULT, a fault, or the effect of the
command it stands for. -/
theorem acceptWord_cases {cmd : BitVec 12} {s t : State} (h : acceptWord cmd s = .next t) :
    (s.phase = .fault ∧ decodeCmd cmd ≠ .ok .rdstat ∧ t = respondZeroIf (respondsOp (opOf cmd)) s) ∨
    (s.phase ≠ .fault ∧ legalCmd cmd = false ∧
      t = raiseFault .illegalCmd (respondsOp (opOf cmd)) s) ∨
    (∃ i, s.phase ≠ .fault ∧ decodeCmd cmd = .ok i ∧ allowedPhase i s.phase = false ∧
      t = raiseFault .seqErr (respondsOp (opOf cmd)) s) ∨
    (∃ i, decodeCmd cmd = .ok i ∧ allowedPhase i s.phase = true ∧ t = commandEffect i s) := by
  unfold acceptWord at h
  cases hd : decodeCmd cmd with
  | error e =>
    simp only [hd] at h
    obtain ⟨-, ⟨hp, ht⟩ | ⟨hp, -, ht⟩ | ⟨-, hl, -⟩ | ⟨-, hl, -⟩⟩ := acceptCommand_next h
    · exact .inl ⟨hp, by simp, ht⟩
    · exact .inr (.inl ⟨hp, by simp [legalCmd, hd, Except.toBool], ht⟩)
    · cases hl
    · cases hl
  | ok i =>
    simp only [hd] at h
    obtain ⟨hi, hw, hr⟩ := decodeCmd_ok hd
    by_cases hs : i = .rdstat
    · subst hs
      obtain ⟨hc, ht⟩ := exec_rdstat_next h
      exact .inr (.inr (.inr ⟨_, rfl, by simpa [allowedPhase] using ((cmdReady_iff s).1 hc).2.1, ht⟩))
    · rw [exec_command hi hs, hw, hr] at h
      obtain ⟨-, ⟨hp, ht⟩ | ⟨-, hl, -⟩ | ⟨hp, -, ha, ht⟩ | ⟨-, -, ha, ht⟩⟩ := acceptCommand_next h
      · exact .inl ⟨hp, by simpa using hs, ht⟩
      · cases hl
      · exact .inr (.inr (.inl ⟨i, hp, rfl, ha, ht⟩))
      · exact .inr (.inr (.inr ⟨i, rfl, ha, ht⟩))

/-- A word presented while `cmd_ready` = 1 is always accepted. -/
theorem acceptWord_ready {cmd : BitVec 12} {s : State} (hc : cmdReady s = true) :
    ∃ t, acceptWord cmd s = .next t := by
  unfold acceptWord
  cases hd : decodeCmd cmd with
  | error e => exact acceptCommand_ready hc
  | ok i =>
    by_cases hs : i = .rdstat
    · subst hs; exact ⟨_, exec_rdstat hc⟩
    · simp only [exec_command (decodeCmd_ok hd).1 hs]
      exact acceptCommand_ready hc

end Sys2Proof.Machine
end

