-- ==== Sys2Proof/Laws/Runs.lean ====
section
/-! SUPPORT. Runs of several steps, the words of script lines, and the round of the machine as the round of the
reference. -/

namespace Sys2Proof.Machine

open Sys2Proof

@[simp] theorem runSteps_zero (s : State) : runSteps 0 s = .next s := rfl

/-- The first step of a run, and what is left of it. -/
theorem runSteps_succ_eq (k : Nat) (s : State) :
    runSteps (k + 1) s = match step s with
      | .next t => runSteps k t
      | .fault r => .fault r
      | .refused r => .refused r := rfl

/-- A run whose first step answers a next state goes on from there. -/
theorem runSteps_succ {s t : State} (h : step s = .next t) (k : Nat) : runSteps (k + 1) s = runSteps k t := by
  rw [runSteps_succ_eq, h]

@[simp] theorem runSteps_one {s t : State} (h : step s = .next t) : runSteps 1 s = .next t :=
  runSteps_succ h 0

/-- A run of `j + k` steps is a run of `j` steps and then one of `k`. -/
theorem runSteps_add {s t : State} {j : Nat} (h : runSteps j s = .next t) (k : Nat) :
    runSteps (j + k) s = runSteps k t := by
  induction j generalizing s with
  | zero =>
    cases h
    rw [Nat.zero_add]
  | succ j ih =>
    rw [runSteps_succ_eq] at h
    cases hs : step s with
    | next s' =>
      rw [hs] at h
      rw [Nat.add_right_comm, runSteps_succ hs]
      exact ih h
    | fault r => rw [hs] at h; cases h
    | refused r => rw [hs] at h; cases h

/-- A run can be taken one step further at its end. -/
theorem runSteps_snoc {s t u : State} {k : Nat} (h : runSteps k s = .next t) (hs : step t = .next u) :
    runSteps (k + 1) s = .next u := by
  rw [runSteps_add h]
  exact runSteps_one hs

/-! ## The words of script lines (R81) -/

@[simp] theorem line_init : line 0x1 0x00 = .cmd 0x100 := rfl
@[simp] theorem line_final : line 0x3 0x00 = .cmd 0x300 := rfl
@[simp] theorem line_absorb (b : Byte) : line 0x2 b = .cmd (0x2#4 ++ b) := rfl

@[simp] theorem absorbBytes_nil : absorbBytes [] = [] := rfl

@[simp] theorem absorbBytes_cons (b : Byte) (msg : List Byte) :
    absorbBytes (b :: msg) = .cmd (0x2#4 ++ b) :: absorbBytes msg := rfl

@[simp] theorem length_rdhexAll : rdhexAll.length = 32 := by simp [rdhexAll]

/-! ## What the script moves are: no pause, no reset -/

theorem noReset_cons_cmd {cmd : BitVec 12} {rest : List HostMove} (h : NoReset rest) :
    NoReset (.cmd cmd :: rest) := by
  unfold NoReset at *
  simpa using h

@[simp] theorem noResetNow_of_noReset {moves : List HostMove} (h : NoReset moves) : noResetNow moves = true := by
  cases moves with
  | nil => rfl
  | cons m rest =>
    unfold NoReset at h
    cases m <;> simp_all [noResetNow]

theorem noReset_portAfterWait {moves : List HostMove} (h : NoReset moves) : NoReset (portAfterWait moves) := by
  cases moves with
  | nil => exact h
  | cons m rest =>
    unfold NoReset at *
    cases m <;> simp_all [portAfterWait]

@[simp] theorem commandsOf_portAfterWait (moves : List HostMove) :
    commandsOf (portAfterWait moves) = commandsOf moves := by
  cases moves with
  | nil => rfl
  | cons m rest => cases m <;> rfl

/-! ## One round of the reference, group by group (R131, R132, R134) -/

theorem roundFn_groupF {i : BitVec 6} (h : i < 16) (x : Quad) (M : Block) :
    roundFn i x M = roundCore i (nonlinF x.b x.c x.d) (bufWord M (indexF i)) x := by
  have q : (quartile i).toNat = 0 := by revert i; decide
  unfold roundFn roundCore nonlinear messageIndex bufWord
  simp only [q]
  rfl

theorem roundFn_groupG {i : BitVec 6} (h : 16 ≤ i ∧ i < 32) (x : Quad) (M : Block) :
    roundFn i x M = roundCore i (nonlinG x.b x.c x.d) (bufWord M (indexG i)) x := by
  have q : (quartile i).toNat = 1 := by revert i; decide
  unfold roundFn roundCore nonlinear messageIndex bufWord
  simp only [q]
  rfl

theorem roundFn_groupH {i : BitVec 6} (h : 32 ≤ i ∧ i < 48) (x : Quad) (M : Block) :
    roundFn i x M = roundCore i (nonlinH x.b x.c x.d) (bufWord M (indexH i)) x := by
  have q : (quartile i).toNat = 2 := by revert i; decide
  unfold roundFn roundCore nonlinear messageIndex bufWord
  simp only [q]
  rfl

theorem roundFn_groupI {i : BitVec 6} (h : 48 ≤ i) (x : Quad) (M : Block) :
    roundFn i x M = roundCore i (nonlinI x.b x.c x.d) (bufWord M (indexI i)) x := by
  have q : (quartile i).toNat = 3 := by revert i; decide
  unfold roundFn roundCore nonlinear messageIndex bufWord
  simp only [q]
  rfl

end Sys2Proof.Machine
end

