-- ==== Sys2Proof/Tests/Slice0.lean ====
section
/-! SUPPORT. Tests whose expected values stand in spec/ (95_test_vectors.md and the examples of the rules), and
for every obligation with hypotheses a state and operands that meet them. -/

namespace Sys2Proof.Tests

open Sys2Proof.Machine

/-! ## A small state to start from -/

/-- One fixed datapath: A to D the initial value, BUF zero, no message. -/
def dp0 : Datapath where
  H := iv
  w := ⟨0x11111111, 0x22222222, 0x33333333, 0x44444444⟩
  M := bufClear
  bitlen := 0

/-- The state after reset with that datapath, in phase `p`, with `moves` next from the HOST. -/
def sAt (p : Phase) (moves : List HostMove) : State := { State.resetWith dp0 with phase := p, port := moves }

/-- A compression in progress in phase `p` after `n` rounds. -/
def sRun (p : Phase) (n : BitVec 7) (moves : List HostMove) : State :=
  { sAt p moves with run := true, i := n, w := iv }

/-- Phase FINAL between compressions. -/
def sFin (f : FinStage) (len : Word) : State := { sAt .final [] with fst := f, bitlen := len }

/-- Phase FAULT after SEQ_ERR. -/
def sFault (moves : List HostMove) : State := { sAt .fault moves with fcode := .seqErr }

/-- Reset applied. -/
def sReset (moves : List HostMove) : State := { sAt .idle moves with rst := true }

/-- The next state of an outcome, if it is one. -/
def nextOf : Host.Outcome State Fault Refusal → Option State
  | .next s => some s
  | .fault _ => none
  | .refused _ => none

/-! ## WellFormed refuses ill-formed operands (R86) -/

theorem test_wellFormed_rdhex_32 : (Instr.rdhex 0x20).wellFormed = false := by decide
theorem test_wellFormed_rdhex_31 : (Instr.rdhex 0x1f).wellFormed = true := by decide
theorem test_wellFormed_rddig_16 : (Instr.rddig 0x10).wellFormed = false := by decide
theorem test_wellFormed_rddig_15 : (Instr.rddig 0x0f).wellFormed = true := by decide

/-! ## Words written out bit by bit from R81 and R85 -/

theorem test_decode_init : decodeCmd 0b0001_00000000 = .ok .init := by decide
theorem test_decode_absorb : decodeCmd 0b0010_10010111 = .ok (.absorb 0x97) := by decide
theorem test_decode_final : decodeCmd 0b0011_00000000 = .ok .final := by decide
theorem test_decode_rdhex : decodeCmd 0b0100_000_10011 = .ok (.rdhex 19) := by decide
theorem test_decode_rddig : decodeCmd 0b0101_0000_1010 = .ok (.rddig 10) := by decide
theorem test_decode_rdstat : decodeCmd 0b0110_00000000 = .ok .rdstat := by decide
theorem test_decode_roundF : decodeSeq 0b001_00_1_000_0101 = .ok .roundF := by decide
theorem test_decode_roundG : decodeSeq 0b010_10_1_001_1111 = .ok .roundG := by decide
theorem test_decode_roundH : decodeSeq 0b001_00_1_010_0000 = .ok .roundH := by decide
theorem test_decode_roundI : decodeSeq 0b010_01_1_011_1111 = .ok .roundI := by decide
theorem test_decode_feedfwd : decodeSeq 0b010_01_1_1000000 = .ok .feedfwd := by decide
theorem test_decode_padstep0 : decodeSeq 0b010_00_0_0101010 = .ok .padstep0 := by decide
theorem test_decode_padstep1 : decodeSeq 0b010_01_0_1000000 = .ok .padstep1 := by decide
theorem test_decode_padstep2 : decodeSeq 0b010_10_0_1000000 = .ok .padstep2 := by decide

/-! ## Reserved words are rejected by name (R86, R202) -/

theorem test_reserved_op_0 : decodeCmd 0x000 = .error (.reservedOp 0x0) := by decide
theorem test_reserved_op_7 : decodeCmd 0x700 = .error (.reservedOp 0x7) := by decide
theorem test_reserved_init_imm : decodeCmd 0x101 = .error (.immNotZero 0x01) := by decide
theorem test_reserved_rdhex_32 : decodeCmd 0x420 = .error (.hexIndexTooLarge 0x20) := by decide
theorem test_reserved_rddig_16 : decodeCmd 0x510 = .error (.digIndexTooLarge 0x10) := by decide
theorem test_reserved_rdstat_imm : decodeCmd 0x6ff = .error (.immNotZero 0xff) := by decide
theorem test_no_row_above_64 : decodeSeq 0b001_00_1_1000001 = .error (.noSequencerRow 0x4c1) := by decide
theorem test_no_row_idle : decodeSeq 0b001_00_0_0000000 = .error (.noSequencerRow 0x400) := by decide

/-! ## The table words of the host -/

theorem test_table_absorb : decodeTableWord 16 0x200 = some (.absorb 0) := by decide
theorem test_table_roundF : decodeTableWord 16 0x0080 = some .roundF := by decide
theorem test_table_padstep2 : decodeTableWord 16 0x0a00 = some .padstep2 := by decide
theorem test_table_none : decodeTableWord 16 0x2000 = none := by decide

/-- INIT is the first instruction after reset, placed by withFetchWord. -/
theorem test_fetch_init :
    (nextOf (step (State.reset.withFetchWord 16 0x100))).map (fun t => (t.phase, t.H, t.bitlen)) =
      some (.absorb, iv, 0) := by decide

theorem test_fetch_roundF :
    (nextOf (step (State.reset.withFetchWord 16 0x0080))).map (fun t => (t.run, t.i)) = some (true, 1) := by
  decide

/-! ## Primitives and tables (95_test_vectors.md V2 to V5) -/

theorem test_add_wraps : (0xffffffff : Word) + 0xffffffff = 0xfffffffe := by decide
theorem test_rotl_4 : rotl32 0x12345678 4 = 0x23456781 := by decide
theorem test_rotl_31 : rotl32 0x00000001 31 = 0x80000000 := by decide
theorem test_nonlin :
    [nonlinF, nonlinG, nonlinH, nonlinI].map (fun f => f 0xf0f0f0f0 0xcccccccc 0xaaaaaaaa) =
      [0xcacacaca, 0xe4e4e4e4, 0x96969696, 0x39393939] := by decide
theorem test_table_k :
    [0, 1, 15, 16, 31, 32, 47, 48, 63].map kAt =
      [0xd76aa478, 0xe8c7b756, 0x49b40821, 0xf61e2562, 0x8d2a4c8a, 0xfffa3942, 0xc4ac5665, 0xf4292244,
       0xeb86d391] := by decide
theorem test_table_s :
    [0, 1, 15, 16, 31, 32, 47, 48, 63].map (fun i => (Machine.sAt i).toNat) =
      [7, 12, 22, 5, 20, 4, 23, 6, 21] := by decide
theorem test_index :
    [0, 1, 15, 16, 31, 32, 47, 48, 63].map messageIndex = [0, 1, 15, 1, 12, 5, 2, 0, 9] := by decide

/-! ## The engine steps -/

/-- The block of the empty message (V1). -/
def emptyBlock : Block := bufOrByte 0 0x80 bufClear

/-- `round(63, (ffffffff x 4), all-ones M)` (V5): both sums wrap. -/
theorem test_round_wraps :
    roundFn 63 ⟨0xffffffff, 0xffffffff, 0xffffffff, 0xffffffff⟩ (Vector.replicate 16 0xffffffff) =
      ⟨0xffffffff, 0x71fd70d9, 0xffffffff, 0xffffffff⟩ := by decide

/-- V1, row 0. -/
theorem test_roundF :
    (nextOf (exec .roundF { sRun .final 0 [] with M := emptyBlock })).map (fun t => (t.w, t.i)) =
      some (⟨0x10325476, 0xa5202774, 0xefcdab89, 0x98badcfe⟩, 1) := by decide

/-- V1, row 16. -/
theorem test_roundG :
    (nextOf (exec .roundG { sRun .final 16 [] with
        M := emptyBlock, w := ⟨0xf56c7cf1, 0xd6819c6a, 0x5aa53f75, 0x374943a7⟩ })).map
      (fun t => (t.w, t.i)) =
      some (⟨0x374943a7, 0x1c7d7513, 0xd6819c6a, 0x5aa53f75⟩, 17) := by decide

/-- V1, row 41: the round reads `M[0]` through `g` = 0. -/
theorem test_roundH :
    (nextOf (exec .roundH { sRun .final 41 [] with
        M := emptyBlock, w := ⟨0xabc34e16, 0x4497169d, 0xc5dc8c15, 0x91ca4cb7⟩ })).map
      (fun t => (t.w, t.i)) =
      some (⟨0x91ca4cb7, 0x76fd93d4, 0x4497169d, 0xc5dc8c15⟩, 42) := by decide

/-- V1, row 48. -/
theorem test_roundI :
    (nextOf (exec .roundI { sRun .final 48 [] with
        M := emptyBlock, w := ⟨0x3f55edfd, 0xca7d2dbd, 0x68d84ea2, 0x22a31f54⟩ })).map
      (fun t => (t.w, t.i)) =
      some (⟨0x22a31f54, 0x93aa2577, 0xca7d2dbd, 0x68d84ea2⟩, 49) := by decide

/-- V1, FEEDFWD. -/
theorem test_feedfwd :
    (nextOf (exec .feedfwd { sRun .final 64 [] with
        M := emptyBlock, w := ⟨0x7246fad3, 0x14e45506, 0xff4ea3eb, 0x6e10a476⟩ })).map
      (fun t => (t.H, t.M, t.run, t.i)) =
      some (⟨0xd98c1dd4, 0x04b2008f, 0x980980e9, 0x7e42f8ec⟩, bufClear, false, 64) := by decide

/-- V8, row 55: the length word goes into this block. -/
theorem test_padstep0_55 :
    (nextOf (exec .padstep0 (sFin .terminatorPlaced 0x1b8))).map
      (fun t => (t.fst, bufWord t.M 14, t.run, t.i)) =
      some (.lengthDispatched, 0x1b8, true, 0) := by decide

/-- V8, row 56: the block is dispatched as it stands. -/
theorem test_padstep0_56 :
    (nextOf (exec .padstep0 (sFin .terminatorPlaced 0x1c0))).map
      (fun t => (t.fst, bufWord t.M 14, t.run, t.w)) =
      some (.spillDispatched, 0, true, iv) := by decide

theorem test_padstep1 :
    (nextOf (exec .padstep1 (sFin .spillDispatched 0x1c0))).map
      (fun t => (t.fst, bufWord t.M 14, bufWord t.M 15, t.run)) =
      some (.lengthDispatched, 0x1c0, 0, true) := by decide

theorem test_padstep2 :
    (nextOf (exec .padstep2 (sFin .lengthDispatched 0x1c0))).map (fun t => (t.phase, t.fst, statusByte t)) =
      some (.done, .terminatorPlaced, 0x03) := by decide

/-! ## The commands -/

/-- P1, P6: INIT in phase DONE starts afresh. -/
theorem test_init_in_done :
    (nextOf (exec .init { sAt .done [] with lenovf := true, bitlen := 0x200, H := ⟨1, 2, 3, 4⟩ })).map
      (fun t => (t.H, t.bitlen, t.lenovf, statusByte t)) = some (iv, 0, false, 0x01) := by decide

/-- V7: the fifth byte goes into lane 0 of word 1. -/
theorem test_absorb_lane :
    (nextOf (exec (.absorb 0x55) { sAt .absorb [] with bitlen := 0x20 })).map
      (fun t => (bufWord t.M 0, bufWord t.M 1, t.bitlen)) = some (0, 0x55, 0x28) := by decide

/-- R26, R112: the ABSORB that wraps the length sets `lenovf` and, being byte 63, dispatches the block. -/
theorem test_absorb_wraps :
    (nextOf (exec (.absorb 0x61) { sAt .absorb [] with bitlen := 0xfffffff8 })).map
      (fun t => (t.bitlen, t.lenovf, t.run, bufWord t.M 15)) = some (0, true, true, 0x61000000) := by decide

/-- V8, row 59. -/
theorem test_final_59 :
    (nextOf (exec .final { sAt .absorb [] with bitlen := 0x1d8 })).map
      (fun t => (bufWord t.M 14, t.phase, t.fst)) = some (0x80000000, .final, .terminatorPlaced) := by decide

/-- R172: byte 5 of the empty-message digest is 0x00, byte 15 is 0x7e. -/
theorem test_rddig :
    [0, 5, 15].map (fun j => (nextOf (exec (.rddig j)
      { sAt .done [] with H := ⟨0xd98c1dd4, 0x04b2008f, 0x980980e9, 0x7e42f8ec⟩ })).bind (·.rsp)) =
      [some 0xd4, some 0x00, some 0x7e] := by decide

/-- R173: `d`, `4` and `e`. -/
theorem test_rdhex :
    [0, 1, 31].map (fun k => (nextOf (exec (.rdhex k)
      { sAt .done [] with H := ⟨0xd98c1dd4, 0x04b2008f, 0x980980e9, 0x7e42f8ec⟩ })).bind (·.rsp)) =
      [some 0x64, some 0x34, some 0x65] := by decide

/-- P5: STATUS after SEQ_ERR is 0x24, and RDHEX then responds 0x00. -/
theorem test_rdstat_fault : (nextOf (exec .rdstat (sFault []))).bind (·.rsp) = some 0x24 := by decide
theorem test_rdhex_fault : (nextOf (exec (.rdhex 0) (sFault []))).bind (·.rsp) = some 0x00 := by decide

/-- P5: ABSORB in phase IDLE raises SEQ_ERR without a response. -/
theorem test_absorb_idle :
    (nextOf (step (sAt .idle [.cmd 0x261]))).map (fun t => (t.phase, t.fcode, t.rsp)) =
      some (.fault, .seqErr, none) := by decide

/-- R205: `RDHEX 32` in phase ABSORB reports ILLEGAL_CMD. -/
theorem test_illegal_before_phase :
    (nextOf (step (sAt .absorb [.cmd 0x420]))).map (fun t => (t.fcode, t.rsp)) =
      some (.illegalCmd, some 0x00) := by decide

/-! ## Scripts (R94, P2, P5) -/

theorem test_script_abc :
    (textBytes "abc").map digestScript = some [.cmd 0x100, .cmd 0x261, .cmd 0x262, .cmd 0x263, .cmd 0x300] := by
  decide

/-- R94, U15: 0x7e is admitted; 0x7f, the quote and a character outside ASCII are not. -/
theorem test_script_text :
    textBytes "~" = some [0x7e] ∧ textBytes "a\x7f" = none ∧ absorbText "\"" = none ∧
    digestText "\u00e9" = none := by decide

theorem test_script_readAll :
    rdhexAll.head? = some (.cmd 0x400) ∧ rdhexAll.getLast? = some (.cmd 0x41f) ∧
    rddigAll.getLast? = some (.cmd 0x50f) ∧ absorbN 0x61 2 = [.cmd 0x261, .cmd 0x261] := by decide

/-! ## Digests and padding (T1, T3, V6) -/

set_option maxRecDepth 100000 in
theorem test_digest_empty : md5State [] = ⟨0xd98c1dd4, 0x04b2008f, 0x980980e9, 0x7e42f8ec⟩ := by decide +kernel

theorem test_hex_abc :
    (md5Hex [0x61, 0x62, 0x63]).map (fun c => Char.ofNat c.toNat) =
      "900150983cd24fb0d6963f7d28e17f72".toList := by decide +kernel

theorem test_hex_alphabet :
    (md5Hex ((List.range 26).map fun n => BitVec.ofNat 8 (0x61 + n))).map (fun c => Char.ofNat c.toNat) =
      "c3fcd3d76192e4007dfb496cca67e13b".toList := by decide +kernel

/-- V9: 56 bytes 0x61 take two blocks. -/
theorem test_digest_56 :
    md5State (List.replicate 56 0x61) = ⟨0xc78a0c3b, 0xb028f803, 0x70196c4c, 0x1872d106⟩ := by decide +kernel

theorem test_padding_abc :
    (paddedMessage [0x61, 0x62, 0x63]).length = 16 ∧
    (paddedMessage [0x61, 0x62, 0x63])[0]? = some 0x80636261 ∧
    (paddedMessage [0x61, 0x62, 0x63])[14]? = some 0x18 := by decide

/-! ## Every obligation's hypotheses are met -/

theorem wit_DecodeOfEncode : (Instr.rdhex 0x1f).wellFormed = true ∧ (Instr.rddig 0x0f).wellFormed = true := by
  decide

theorem wit_CommandWordsHaveOneMeaning : decodeCmd 0x41f = .ok (.rdhex 0x1f) := by decide

theorem wit_LegalWords_outside_fault :
    legalCmd 0x420 = false ∧ (sAt .absorb [.cmd 0x420]).port = .cmd 0x420 :: [] ∧
    cmdReady (sAt .absorb [.cmd 0x420]) = true ∧ (sAt .absorb [.cmd 0x420]).phase ≠ .fault := by decide

theorem wit_LegalWords_in_fault :
    legalCmd 0x101 = false ∧ (sFault [.cmd 0x101]).port = .cmd 0x101 :: [] ∧
    cmdReady (sFault [.cmd 0x101]) = true ∧ (sFault [.cmd 0x101]).phase = .fault := by decide

theorem wit_StepRunsTheDecodedCommand :
    (sAt .idle [.cmd 0x100]).port = .cmd 0x100 :: [] ∧ cmdReady (sAt .idle [.cmd 0x100]) = true ∧
    decodeCmd 0x100 = .ok .init := by decide

theorem wit_StepRunsTheDecodedEngineStep :
    (sRun .absorb 63 [.cmd 0x300]).rst = false ∧ cmdReady (sRun .absorb 63 [.cmd 0x300]) = false ∧
    noResetNow (sRun .absorb 63 [.cmd 0x300]).port = true ∧
    decodeSeq (seqWord (sRun .absorb 63 [.cmd 0x300])) = .ok .roundI := by decide

theorem wit_ExactlyOneEngineStep :
    [0, 16, 32, 48, 64].all (fun n => decide (Inv (sRun .absorb n []) ∧ cmdReady (sRun .absorb n []) = false)) ∧
    [FinStage.terminatorPlaced, .spillDispatched, .lengthDispatched].all
      (fun f => decide (Inv (sFin f 0x1c0) ∧ cmdReady (sFin f 0x1c0) = false)) ∧
    Inv (sAt .absorb []) ∧ cmdReady (sAt .absorb []) = true := by decide

theorem wit_MeaningsStop :
    (sRun .absorb 5 []).rst = false ∧ decodeSeq (seqWord (sRun .absorb 5 [])) = .ok .roundF ∧
    decodeSeq (seqWord (sRun .absorb 5 [])) ≠ .ok .feedfwd ∧ (sReset []).rst = true ∧
    cmdReady (sAt .idle []) = true ∧ cmdReady (sRun .absorb 5 []) = false := by decide

theorem wit_CommandPresentedEarly :
    (sRun .absorb 64 [.cmd 0x300]).port = .cmd 0x300 :: [] ∧ cmdReady (sRun .absorb 64 [.cmd 0x300]) = false ∧
    (nextOf (step { sRun .absorb 64 [.cmd 0x300] with port := [] })).isSome = true := by decide

theorem wit_CommandPresentedEarly_refused :
    cmdReady (sRun .absorb 65 [.cmd 0x300]) = false ∧
    (match step { sRun .absorb 65 [.cmd 0x300] with port := [] } with
      | .refused r => r == .noRule
      | _ => false) = true := by decide

theorem wit_IdleEngine :
    cmdReady (sAt .done [.pause]) = true ∧ (sAt .done [.pause]).port = .pause :: [] ∧
    cmdReady (sAt .absorb []) = true ∧ (sAt .absorb []).port = [] := by decide

theorem wit_Rdstat : cmdReady (sFault []) = true := by decide

theorem messageInv_sFault : MessageInv (sFault []) :=
  by refine ⟨?_, ?_, ?_, ?_, ?_, ?_, ?_, ?_, ?_⟩ <;> decide

theorem wit_StatusTakesNineValues :
    Inv (sFault []) ∧ MessageInv (sFault []) ∧ cmdReady (sFault []) = true :=
  ⟨by decide, messageInv_sFault, by decide⟩

theorem wit_InitStartsAMessage :
    cmdReady (sAt .idle []) = true ∧ cmdReady (sAt .done []) = true ∧ (sAt .done []).phase = .done := by decide

theorem wit_Absorb_63 :
    cmdReady { sAt .absorb [] with bitlen := 0xfffffff8 } = true ∧
    ({ sAt .absorb [] with bitlen := 0xfffffff8 } : State).bitlen.extractLsb' 3 6 = 63#6 := by decide

theorem wit_Absorb_not_63 :
    cmdReady (sAt .absorb []) = true ∧ (sAt .absorb []).bitlen.extractLsb' 3 6 ≠ 63#6 := by decide

theorem wit_AbsorbStoresExactly :
    MessageInv (sAt .absorb []) ∧ cmdReady (sAt .absorb []) = true ∧ (sAt .absorb []).phase = .absorb :=
  ⟨by refine ⟨?_, ?_, ?_, ?_, ?_, ?_, ?_, ?_, ?_⟩ <;> decide, by decide, by decide⟩

theorem wit_Final : cmdReady (sAt .absorb []) = true ∧ (sAt .absorb []).phase = .absorb := by decide

theorem wit_Rddig : cmdReady (sAt .done []) = true ∧ (sAt .done []).phase = .done ∧ (0x0f : Byte) ≤ 0x0f := by
  decide

theorem wit_Rdhex : cmdReady (sAt .done []) = true ∧ (sAt .done []).phase = .done ∧ (0x1f : Byte) ≤ 0x1f := by
  decide

theorem wit_ReadIndexOutOfRange :
    cmdReady (sAt .done []) = true ∧ (sAt .done []).phase ≠ .fault ∧ (0x1f : Byte) < 0x20 ∧
    (0x0f : Byte) < 0x10 ∧ cmdReady (sFault []) = true ∧ (sFault []).phase = .fault := by decide

theorem wit_Padstep0 :
    [0x1b8, 0x1c0].all (fun len => decide ((sFin .terminatorPlaced len).rst = false ∧
      (sFin .terminatorPlaced len).phase = .final ∧ (sFin .terminatorPlaced len).fst = .terminatorPlaced ∧
      (sFin .terminatorPlaced len).run = false)) ∧
    (sFin .terminatorPlaced 0x1b8).bitlen.extractLsb' 3 6 < 56#6 ∧
    56#6 ≤ (sFin .terminatorPlaced 0x1c0).bitlen.extractLsb' 3 6 := by decide

theorem wit_Padstep1 :
    (sFin .spillDispatched 0x1c0).rst = false ∧ (sFin .spillDispatched 0x1c0).phase = .final ∧
    (sFin .spillDispatched 0x1c0).fst = .spillDispatched ∧ (sFin .spillDispatched 0x1c0).run = false := by decide

theorem wit_Padstep2 :
    (sFin .lengthDispatched 0).rst = false ∧ (sFin .lengthDispatched 0).phase = .final ∧
    (sFin .lengthDispatched 0).fst = .lengthDispatched ∧ (sFin .lengthDispatched 0).run = false := by decide

theorem wit_RoundSteps :
    [0, 15, 16, 31, 32, 47, 48, 63].all (fun n => decide ((sRun .final n []).rst = false ∧
      (sRun .final n []).run = true ∧ (sRun .final n []).i = n)) = true := by decide

theorem wit_Feedfwd :
    (sRun .absorb 64 []).rst = false ∧ (sRun .absorb 64 []).run = true ∧ (sRun .absorb 64 []).i = 64 ∧
    (sRun .absorb 64 []).phase = .absorb := by decide

theorem wit_Feedfwd_final :
    [FinStage.spillDispatched, .lengthDispatched].all (fun f =>
      decide (({ sRun .final 64 [] with fst := f } : State).rst = false ∧
        ({ sRun .final 64 [] with fst := f } : State).run = true ∧
        ({ sRun .final 64 [] with fst := f } : State).i = 64 ∧
        ({ sRun .final 64 [] with fst := f } : State).phase = .final ∧
        ({ sRun .final 64 [] with fst := f } : State).fst = f)) = true := by decide

theorem wit_CommandsOutOfPhase :
    (cmdReady (sAt .absorb []) = true ∧ Instr.init.wellFormed = true ∧ (sAt .absorb []).phase = .absorb) ∧
    (cmdReady (sAt .done []) = true ∧ (Instr.rdhex 0x1f).wellFormed = true ∧ (sAt .done []).phase = .done) ∧
    (cmdReady (sAt .idle []) = true ∧ Instr.rdstat.wellFormed = true ∧ (sAt .idle []).phase = .idle) := by
  decide

/-- One accepted word for each of the five checks of R88. -/
theorem wit_AcceptedWords :
    [sAt .absorb [.cmd 0x600], sFault [.cmd 0x100], sAt .absorb [.cmd 0x420], sAt .absorb [.cmd 0x41f],
      sAt .done [.cmd 0x41f]].all (fun s => cmdReady s) = true ∧
    legalCmd 0x420 = false ∧ legalCmd 0x41f = true ∧ (0x41f : BitVec 12).extractLsb' 8 4 = 0x4 ∧
    (sAt .absorb [.cmd 0x41f]).phase = .absorb ∧ (sAt .done [.cmd 0x41f]).phase = .done := by decide

theorem wit_FaultEntry_seqErr :
    (sAt .absorb [.cmd 0x100]).port = .cmd 0x100 :: [] ∧ cmdReady (sAt .absorb [.cmd 0x100]) = true ∧
    (sAt .absorb [.cmd 0x100]).phase ≠ .fault ∧
    (nextOf (step (sAt .absorb [.cmd 0x100]))).map (·.phase) = some .fault := by decide

theorem wit_FaultEntry_illegal :
    legalCmd 0x7ff = false ∧ cmdReady (sAt .idle [.cmd 0x7ff]) = true ∧
    (nextOf (step (sAt .idle [.cmd 0x7ff]))).map (·.phase) = some .fault := by decide

theorem wit_FaultPhase :
    (sFault [.cmd 0x600]).phase = .fault ∧ (sFault [.cmd 0x600]).run = false ∧ (sFault [.cmd 0x600]).rst = false ∧
    (sFault [.cmd 0x600]).port = .cmd 0x600 :: [] ∧ (sFault [.cmd 0x601]).port = .cmd 0x601 :: [] := by decide

theorem wit_ResponseDependsOnOp :
    cmdReady (sAt .idle [.cmd 0x400]) = true ∧ (sAt .idle [.cmd 0x400]).port = .cmd 0x400 :: [] ∧
    (nextOf (step (sAt .idle [.cmd 0x400]))).map (·.phase) = some .fault := by decide

/-- One step for each cause of a change of phase. -/
theorem wit_PhaseTransitions :
    [sAt .idle [.cmd 0x100], sAt .done [.cmd 0x100], sAt .absorb [.cmd 0x300], sAt .idle [.cmd 0x300],
      sFin .lengthDispatched 0].map (fun s => (nextOf (step s)).map (fun t => (s.rst, t.rst, t.phase))) =
      [some (false, false, .absorb), some (false, false, .absorb), some (false, false, .final),
       some (false, false, .fault), some (false, false, .done)] := by decide

theorem wit_PhaseTransitions_release :
    (nextOf (step (sReset [.releaseReset]))).map (fun t => ((sReset [.releaseReset]).rst, t.rst)) =
      some (true, false) := by decide

theorem wit_ChainingState :
    (nextOf (step { sAt .idle [.cmd 0x100] with H := ⟨1, 2, 3, 4⟩ })).map (fun t => (t.rst, decide (t.H = ⟨1, 2, 3, 4⟩))) =
      some (false, false) ∧
    (nextOf (step (sRun .absorb 64 []))).map (fun t => (t.rst, decide (t.H = iv))) = some (false, false) := by
  decide

theorem wit_BufferIsWritten :
    (nextOf (step (sAt .absorb [.cmd 0x261]))).map (fun t => (t.rst, decide (t.M = bufClear))) =
      some (false, false) ∧
    (nextOf (step (sFin .spillDispatched 0x1c0))).map (fun t => (t.rst, decide (t.M = bufClear))) =
      some (false, false) := by decide

theorem wit_Lenovf_set :
    (nextOf (step { sAt .absorb [.cmd 0x200] with bitlen := 0xfffffff8 })).map (fun t => (t.rst, t.lenovf)) =
      some (false, true) := by decide

theorem wit_Lenovf_cleared :
    (nextOf (step { sAt .done [.cmd 0x100] with lenovf := true })).map (fun t => (t.rst, t.lenovf)) =
      some (false, false) := by decide

theorem wit_ResetInput :
    (sRun .absorb 7 [.applyReset]).port = .applyReset :: [] ∧ (sReset [.pause]).rst = true ∧
    noResetNow (sReset [.pause]).port = true ∧ noResetNow (sReset [.cmd 0x100]).port = true ∧
    (sReset [.releaseReset]).port = .releaseReset :: [] := by decide

theorem wit_PhaseTransitions_reset :
    (nextOf (step (sAt .absorb [.applyReset]))).map (·.rst) = some true ∧
    (sReset [.pause]).rst = true ∧ (nextOf (step (sReset [.pause]))).isSome = true :=
  ⟨congrArg some (underReset_rst _), by decide, by simp [step, takeStep, withoutCommand, sReset, sAt, nextOf]⟩

theorem wit_EveryStepKeepsTheInvariant :
    Inv (sRun .final 63 []) ∧ (nextOf (step (sRun .final 63 []))).isSome = true := by decide

theorem wit_EveryStepKeepsTheBufferInvariant :
    MessageInv { sFin .spillDispatched 0x1c0 with run := true, i := 64 } ∧
    (nextOf (step { sFin .spillDispatched 0x1c0 with run := true, i := 64 })).isSome = true :=
  ⟨by refine ⟨?_, ?_, ?_, ?_, ?_, ?_, ?_, ?_, ?_⟩ <;> decide, by decide⟩

/-- The state after INIT tracks the empty message. -/
theorem tracks_nil (moves : List HostMove) : Tracks [] (sAt .absorb moves) := by
  have z : holds bufClear [] := by decide
  constructor
  case length => exact fun _ => ⟨rfl, rfl⟩
  case filling => exact fun _ _ => ⟨z, rfl⟩
  all_goals (intros; contradiction)

theorem wit_EveryStepKeepsTheMessage :
    Inv (sAt .absorb [.cmd 0x261]) ∧ Tracks [] (sAt .absorb [.cmd 0x261]) ∧
    (nextOf (step (sAt .absorb [.cmd 0x261]))).isSome = true :=
  ⟨by decide, tracks_nil _, by decide⟩

/-- Three moves after reset: INIT, one byte, and the byte is in BUF. -/
theorem wit_ReachableStates :
    (nextOf (runSteps 2 { State.resetWith dp0 with port := [.cmd 0x100, .cmd 0x261] })).map
      (fun s => (s.phase, s.run, bufWord s.M 0)) = some (.absorb, false, 0x61) ∧
    messageAfterRun 2 [] { State.resetWith dp0 with port := [.cmd 0x100, .cmd 0x261] } = [0x61] := by decide

theorem wit_InvariantStatesNeverStop : Inv (sFault [.cmd 0x100]) := by decide

theorem wit_StepsStopOnly :
    (match step (sRun .absorb 65 []) with
      | .refused r => r == .noRule
      | _ => false) = true := by decide

/-- Two states in phase IDLE whose datapaths differ. -/
theorem wit_HiddenRegisters :
    Inv (sAt .idle [.cmd 0x100]) ∧
    SameButHidden (sAt .idle [.cmd 0x100])
      { sAt .idle [.cmd 0x100] with H := ⟨1, 2, 3, 4⟩, w := iv, bitlen := 0x1234567 } :=
  ⟨by decide, by constructor <;> decide⟩

theorem wit_SixtyFiveSteps :
    (sRun .absorb 0 [.pause]).rst = false ∧ (sRun .absorb 0 [.pause]).run = true ∧
    (sRun .absorb 0 [.pause]).i = 0 ∧ (sRun .absorb 0 [.pause]).w = (sRun .absorb 0 [.pause]).H ∧
    NoReset (sRun .absorb 0 [.pause]).port := by unfold NoReset; decide

theorem wit_BusyPeriods :
    Inv (sFin .terminatorPlaced 0x1c0) ∧ MessageInv (sFin .terminatorPlaced 0x1c0) ∧
    (sFin .terminatorPlaced 0x1c0).rst = false ∧ NoReset (sFin .terminatorPlaced 0x1c0).port :=
  ⟨by decide, by refine ⟨?_, ?_, ?_, ?_, ?_, ?_, ?_, ?_, ?_⟩ <;> decide, by decide,
    by unfold NoReset; decide⟩

theorem wit_InitBegins :
    Inv (sAt .done [.cmd 0x100]) ∧ cmdReady (sAt .done [.cmd 0x100]) = true ∧
    (sAt .done [.cmd 0x100]).phase = .done ∧ (sAt .done [.cmd 0x100]).port = .cmd 0x100 :: [] := by decide

/-- The state after INIT is one with no byte absorbed. -/
theorem absorbed_nil (moves : List HostMove) : Absorbed [] (sAt .absorb moves) where
  rst := rfl
  phase := rfl
  fst := rfl
  run := rfl
  fcode := rfl
  bitlen := rfl
  lenovf := rfl
  bytes := fun q h => absurd h (by simp)
  zeros := by show zeroFrom bufClear 0; decide
  chain := rfl

theorem wit_AbsorbExtends :
    Absorbed [] (sAt .absorb [.cmd (0x2#4 ++ 0x61#8)]) ∧ NoReset [] ∧ HostMove.pause ∉ ([] : List HostMove) :=
  ⟨absorbed_nil _, by unfold NoReset; decide, by decide⟩

/-- The same at the 64th byte, where the block is dispatched. -/
theorem wit_AbsorbExtends_full :
    Absorbed (List.replicate 63 0x00)
      { sAt .absorb [.cmd (0x2#4 ++ 0x61#8)] with bitlen := 0x1f8 } where
  rst := rfl
  phase := rfl
  fst := rfl
  run := rfl
  fcode := rfl
  bitlen := by decide
  lenovf := by decide
  bytes := by decide
  zeros := by show zeroFrom bufClear 63; decide
  chain := rfl

theorem wit_FinalLeaves :
    Absorbed [] (sAt .absorb [.cmd 0x300]) ∧ (sAt .absorb [.cmd 0x300]).port = .cmd 0x300 :: [] ∧ NoReset [] :=
  ⟨absorbed_nil _, rfl, by unfold NoReset; decide⟩

theorem wit_MessageToDigest :
    Inv (sAt .idle (digestScript [0x61])) ∧ (sAt .idle (digestScript [0x61])).rst = false ∧
    (sAt .idle (digestScript [0x61])).phase = .idle ∧
    (sAt .idle (digestScript [0x61])).port = [.cmd 0x100, .cmd 0x261, .cmd 0x300] := by decide

theorem wit_ComputeDigest :
    Inv (sAt .done (computeDigest [])) ∧ (sAt .done (computeDigest [])).rst = false ∧
    (sAt .done (computeDigest [])).phase = .done ∧ (sAt .done (computeDigest [])).port.length = 34 := by decide

theorem wit_ReadCommands :
    cmdReady { sAt .done [] with H := md5State [] } = true ∧
    ({ sAt .done [] with H := md5State [] } : State).phase = .done ∧
    ({ sAt .done [] with H := md5State [] } : State).H = md5State [] ∧ (0x0f : Byte) ≤ 0x0f ∧
    (0x1f : Byte) ≤ 0x1f := ⟨rfl, rfl, rfl, by decide, by decide⟩

theorem wit_Rotate : (1 ≤ 1 ∧ 1 ≤ 31 ∧ 31 < 32) ∧ (1 ≤ 31 ∧ 31 ≤ 31 ∧ 0 < 32) := by decide

theorem wit_Nonlinear :
    (0 : BitVec 6).toNat < 16 ∧ (15 : BitVec 6).toNat < 16 ∧ 16 ≤ (16 : BitVec 6).toNat ∧
    (31 : BitVec 6).toNat < 32 ∧ 32 ≤ (32 : BitVec 6).toNat ∧ (47 : BitVec 6).toNat < 48 ∧
    48 ≤ (48 : BitVec 6).toNat ∧ (63 : BitVec 6).toNat < 64 := by decide

theorem wit_RoundGroups :
    (3 : BitVec 6).toNat / 16 = (7 : BitVec 6).toNat / 16 ∧ (3 : BitVec 6).toNat % 4 = (7 : BitVec 6).toNat % 4 := by
  decide

theorem wit_PaddedMessage : (0 : Nat) < [(0x61 : Byte)].length ∧ 2 + 9 ≤ 64 * (([0x61#8].length + 8) / 64 + 1) := by
  decide

theorem wit_FetchWord :
    decodeTableWord 16 0x600 = some .rdstat ∧ decodeTableWord 16 0x0900 = some .padstep1 := by decide

end Sys2Proof.Tests
end

/-! PROOFS. The statements of 00_scope.md: the rotation (R9), the step of the busy engine (R6), and where the
meanings of the instructions stop (R6, R32, R85). -/

namespace Sys2Proof.Machine

/-! ## Rotation -/

/-- R9's rotation is the library's, for the amounts it is defined for. -/
theorem rotl32_eq_rotateLeft (x : Word) {s : Nat} (h : s < 32) : rotl32 x s = x.rotateLeft s := by
  rw [rotl32, BitVec.rotateLeft_def, Nat.mod_eq_of_lt h]

/-- Settles O55: bit `n` moves up by `s`, or, where that leaves the word, comes in again at the bottom. -/
theorem rotateMovesEachBit : Obligations.RotateMovesEachBit := by
  intro x s n _ hs hn
  rw [rotl32_eq_rotateLeft x (by omega), BitVec.getLsbD_rotateLeft, Nat.mod_eq_of_lt (by omega : s < 32)]
  by_cases h : n + s < 32
  · have hmod : (n + s) % 32 = n + s := Nat.mod_eq_of_lt h
    simp [hmod, h]
  · have hmod : (n + s) % 32 = n + s - 32 := by omega
    have hback : 32 - s + (n + s - 32) = n := by omega
    have hlow : n + s - 32 < s := by omega
    simp [hmod, hback, hlow]

/-! ## The step of the busy engine -/

/-- Settles O7: the step waits at the port, and without a command the busy engine takes the decoded step. -/
theorem stepRunsTheDecodedEngineStep : Obligations.StepRunsTheDecodedEngineStep := by
  intro s i hr hc hn hd
  have hs : selectedStep { s with port := portAfterWait s.port } = some i := (decodeSeq_eq_ok_iff s i).1 hd
  rw [step_wait hn (.inl hc), withoutCommand_engine (by exact hr) (by exact hc), engineStep_selected hs]

/-! ## Where the meanings stop -/

theorem takeEngineStep_refused {j : Instr} {effect : State → State} {s : State}
    (h : s.rst = true ∨ selectedStep s ≠ some j) :
    takeEngineStep j effect s = .refused .notEnabled := by
  have hd : stepEnabled j s = false := by
    rw [← Bool.not_eq_true, stepEnabled_iff]
    rintro ⟨hr, hs⟩
    rcases h with h | h
    · simp [hr] at h
    · exact h hs
  simp [takeEngineStep, hd]

theorem acceptCommand_refused {responds legal : Bool} {allowed : Phase → Bool} {effect : State → State}
    {s : State} (hc : cmdReady s = false) :
    acceptCommand responds legal allowed effect s = .refused .notEnabled := by
  simp [acceptCommand, hc]

/-- A command has a meaning while `cmd_ready` = 1 (R32). -/
theorem exec_command_ready {i : Instr} {s : State} (hi : isEngineStep i = false) (hc : cmdReady s = true) :
    ∃ t, exec i s = .next t := by
  by_cases hs : i = .rdstat
  · subst hs
    exact ⟨_, exec_rdstat hc⟩
  · rw [exec_command hi hs]
    exact acceptCommand_ready hc

theorem exec_command_refused {i : Instr} {s : State} (hi : isEngineStep i = false)
    (hc : cmdReady s = false) : exec i s = .refused .notEnabled := by
  by_cases hs : i = .rdstat
  · subst hs
    simp [exec, execRdstat, hc]
  · rw [exec_command hi hs]
    exact acceptCommand_refused hc

/-- The eight engine steps of R85, listed. -/
theorem mem_engineSteps_iff (i : Instr) :
    i ∈ [Instr.roundF, .roundG, .roundH, .roundI, .feedfwd, .padstep0, .padstep1, .padstep2] ↔
      isEngineStep i = true := by
  cases i <;> simp [isEngineStep]

/-- Settles O10: an engine step by its row of the sequencer decode, a command by `cmd_ready`. -/
theorem meaningsStopExactlyWhenNotEnabled : Obligations.MeaningsStopExactlyWhenNotEnabled := by
  intro i s
  rw [mem_engineSteps_iff, Bool.not_eq_true, ne_eq, decodeSeq_eq_ok_iff]
  refine ⟨fun hi => ⟨fun hr hs => ⟨_, exec_selected hr hs⟩, fun h => ?_⟩,
    fun hi => ⟨exec_command_ready hi, exec_command_refused hi⟩⟩
  rw [exec_engineStep hi]
  exact takeEngineStep_refused h

end Sys2Proof.Machine

/-! PROOFS. The statements of 10_state.md: what a step does to the registers, the invariants of R38, and what
the HOST can see of the registers (R37). -/

namespace Sys2Proof.Machine

/-! ## Which engine step is taken -/

/-- The states in which the sequencer selects each step, the four ROUND steps taken together as the reference
round (R134 to R138, R155). -/
theorem selectedStep_cases {s : State} {j : Instr} (h : selectedStep s = some j) :
    (s.run = true ∧ s.i < 64 ∧
      engineEffect j s = { s with w := roundFn (roundIndex s.i) s.w s.M, i := s.i + 1 }) ∨
    (s.run = true ∧ s.i = 64 ∧ j = .feedfwd) ∨
    (s.run = false ∧ s.phase = .final ∧ s.fst = .terminatorPlaced ∧ j = .padstep0) ∨
    (s.run = false ∧ s.phase = .final ∧ s.fst = .spillDispatched ∧ j = .padstep1) ∨
    (s.run = false ∧ s.phase = .final ∧ s.fst = .lengthDispatched ∧ j = .padstep2) := by
  have hidx : s.i < 64 → (roundIndex s.i).toNat = s.i.toNat := fun hi => by
    simp only [roundIndex, BitVec.extractLsb'_toNat, Nat.shiftRight_zero]
    bv_omega
  rcases Bool.eq_false_or_eq_true s.run with hrun | hrun
  case inr =>
    have hfin : s.phase = .final := by
      by_contra hp
      simp [selectedStep, nextEngineStep, hrun, hp] at h
    cases hf : s.fst <;> simp_all [selectedStep, nextEngineStep]
  case inl =>
    simp only [selectedStep, nextEngineStep, hrun, if_true] at h
    split at h
    case isTrue hF =>
      cases h
      exact .inl ⟨hrun, by bv_omega, by rw [roundFn_groupF (by bv_omega)]; rfl⟩
    split at h
    case isTrue hG =>
      cases h
      exact .inl ⟨hrun, by bv_omega, by rw [roundFn_groupG (by constructor <;> bv_omega)]; rfl⟩
    split at h
    case isTrue hH =>
      cases h
      exact .inl ⟨hrun, by bv_omega, by rw [roundFn_groupH (by constructor <;> bv_omega)]; rfl⟩
    split at h
    case isTrue hI =>
      cases h
      exact .inl ⟨hrun, hI, by rw [roundFn_groupI (by bv_omega)]; rfl⟩
    split at h
    case isTrue hL =>
      cases h
      exact .inr (.inl ⟨hrun, hL, rfl⟩)
    case isFalse => cases h

/-! ## What a step does to the registers -/

/-- What one step from `s` can lead to, by what becomes of R20's registers. -/
inductive StepResult (s : State) : State → Prop where
  /-- The reset values (R230), under reset or at its release. -/
  | reset (dp : Datapath) (rst : Bool) (moves : List HostMove) (draws : Nat) (hr : s.rst = true ∨ rst = true) :
      StepResult s { State.resetWith dp with rst := rst, port := moves, draws := draws }
  /-- Every register kept: nothing to do, or a word without effect in phase FAULT (R206). -/
  | held (rst : Bool) (rsp : Option Byte) (moves : List HostMove) (draws : Nat)
      (hw : ∀ cmd rest, s.port = .cmd cmd :: rest → cmdReady s = true → s.phase = .fault) :
      StepResult s { s with rst := rst, rsp := rsp, port := moves, draws := draws }
  /-- Fault entry (R204). -/
  | faulted (code : FaultCode) (rsp : Option Byte) (moves : List HostMove) (hr : cmdReady s = true)
      (hc : code ≠ .none) :
      StepResult s { s with fcode := code, phase := .fault, rsp := rsp, port := moves }
  /-- A command that executes (R88). -/
  | command (cmd : BitVec 12) (rest : List HostMove) (i : Instr) (hp : s.port = .cmd cmd :: rest)
      (hc : cmdReady s = true) (hd : decodeCmd cmd = .ok i) (ha : allowedPhase i s.phase = true) :
      StepResult s (commandEffect i { s with port := rest })
  /-- An engine step (R155). -/
  | engine (j : Instr) (moves : List HostMove) (hc : cmdReady s = false) (hs : selectedStep s = some j) :
      StepResult s (noResponse (engineEffect j { s with port := moves }))

/-- A step under reset sets the registers to their reset values or keeps them. -/
theorem stepResult_underReset {s : State} (moves : List HostMove)
    (hw : ∀ cmd rest, s.port = .cmd cmd :: rest → cmdReady s = true → s.phase = .fault) :
    StepResult s (underReset { s with port := moves }) := by
  rcases underReset_cases { s with port := moves } with ⟨dp, h⟩ | h <;> rw [h]
  · exact .reset dp true moves (s.draws + 1) (.inr rfl)
  · exact .held true none moves (s.draws + 1) hw

/-- An accepted word is without effect, faults or executes. -/
theorem stepResult_acceptWord {s t : State} {cmd : BitVec 12} {rest : List HostMove}
    (hp : s.port = .cmd cmd :: rest) (hc : cmdReady s = true)
    (h : acceptWord cmd { s with port := rest } = .next t) : StepResult s t := by
  rcases acceptWord_cases h with ⟨hf, -, ht⟩ | ⟨-, -, ht⟩ | ⟨i, -, -, -, ht⟩ | ⟨i, hd, ha, ht⟩
  · rw [ht, respondZeroIf_eq]
    exact .held s.rst _ rest s.draws fun _ _ _ _ => hf
  · rw [ht, raiseFault_eq]
    exact .faulted .illegalCmd _ rest hc (by decide)
  · rw [ht, raiseFault_eq]
    exact .faulted .seqErr _ rest hc (by decide)
  · rw [ht]
    exact .command cmd rest i hp hc hd ha

theorem step_result {s t : State} (h : step s = .next t) : StepResult s t := by
  by_cases hacc : ∃ cmd rest, s.port = .cmd cmd :: rest ∧ cmdReady s = true
  · obtain ⟨cmd, rest, hp, hc⟩ := hacc
    rw [step_cmd_ready hp hc] at h
    exact stepResult_acceptWord hp hc h
  have hw : ∀ cmd rest, s.port = .cmd cmd :: rest → cmdReady s = true → s.phase = .fault :=
    fun cmd rest hp hc => absurd ⟨cmd, rest, hp, hc⟩ hacc
  rcases step_cases h with ⟨rest, -, ht⟩ | ⟨rest, -, ht⟩ | ⟨cmd, rest, hp, hc, -⟩ | ⟨-, -, ht⟩ | ⟨-, -, ht⟩ |
    ⟨j, -, hc, -, hs, ht⟩
  · rw [ht]
    exact stepResult_underReset rest hw
  · cases hr : s.rst
    · rw [ht, releaseReset_of_released (by exact hr)]
      exact .held s.rst none rest s.draws hw
    · rw [ht, releaseReset_of_applied (by exact hr)]
      exact .reset _ false rest (s.draws + 1) (.inl hr)
  · exact absurd ⟨cmd, rest, hp, hc⟩ hacc
  · rw [ht]
    exact stepResult_underReset _ hw
  · rw [ht]
    exact .held s.rst none _ s.draws hw
  · rw [ht]
    exact .engine j _ hc hs

/-! ## R38 (a) to (d) -/

/-- One byte more leaves the three low bits of `bitlen` alone. -/
theorem lowBits_add_eight (bitlen : Word) :
    (bitlen + 8).extractLsb' 0 3 = bitlen.extractLsb' 0 3 := by
  apply BitVec.eq_of_toNat_eq
  simp [BitVec.extractLsb'_toNat]

theorem inv_resetWith (dp : Datapath) : Inv (State.resetWith dp) := by
  simp [Inv, State.resetWith]

/-- A command writes `fcode` in no phase, and `run` and `i` by dispatching a block in phase ABSORB only. -/
theorem inv_commandEffect {i : Instr} {s : State} (hinv : Inv s) (hc : cmdReady s = true)
    (ha : allowedPhase i s.phase = true) : Inv (commandEffect i s) := by
  obtain ⟨hi, hrun, hcode, hlen⟩ := hinv
  obtain ⟨hrun0, -, -⟩ := (cmdReady_iff s).1 hc
  cases i with
  | init =>
    have hp : s.phase ≠ .fault := by rintro h; simp [allowedPhase, h] at ha
    simpa [Inv, commandEffect, hrun0, hp] using And.intro hi hcode
  | absorb b =>
    have hp : s.phase = .absorb := by simpa [allowedPhase] using ha
    have hlow : (s.bitlen + 8).extractLsb' 0 3 = 0 := by
      rw [lowBits_add_eight, hlen (.inl hp)]
    refine ⟨?_, ?_, ?_, ?_⟩
    · simp only [commandEffect, absorbByte_i]
      split
      · decide
      · exact hi
    · exact fun _ => .inl (by simpa [commandEffect] using hp)
    · simpa [commandEffect] using hcode
    · exact fun _ => by simpa [commandEffect] using hlow
  | final =>
    have hp : s.phase = .absorb := by simpa [allowedPhase] using ha
    simpa [Inv, commandEffect, hp, hlen (.inl hp)] using And.intro hi hcode
  | rdhex k => exact ⟨hi, hrun, hcode, hlen⟩
  | rddig j => exact ⟨hi, hrun, hcode, hlen⟩
  | rdstat => exact ⟨hi, hrun, hcode, hlen⟩
  | _ => cases ha

theorem inv_engineEffect {j : Instr} {s : State} (hinv : Inv s) (hs : selectedStep s = some j) :
    Inv (engineEffect j s) := by
  obtain ⟨hi, hrun, hcode, hlen⟩ := hinv
  rcases selectedStep_cases hs with ⟨-, hlt, he⟩ | ⟨-, -, rfl⟩ | ⟨-, hp, -, rfl⟩ | ⟨-, hp, -, rfl⟩ |
    ⟨hr, hp, -, rfl⟩
  · rw [he]
    exact ⟨by bv_omega, hrun, hcode, hlen⟩
  · exact ⟨hi, fun h => Bool.noConfusion h, hcode, hlen⟩
  · have hb := hlen (.inr (.inl hp))
    simpa [Inv, engineEffect, hp, hb] using hcode
  · have hb := hlen (.inr (.inl hp))
    simpa [Inv, engineEffect, hp, hb] using hcode
  · have hb := hlen (.inr (.inl hp))
    simpa [Inv, engineEffect, hp, hb, hr] using And.intro hi hcode

/-- Settles O38: by what becomes of the registers. -/
theorem everyStepKeepsTheInvariant : Obligations.EveryStepKeepsTheInvariant := by
  intro s t hinv h
  cases step_result h with
  | reset dp => exact inv_resetWith dp
  | held => exact hinv
  | faulted code rsp moves hc hcode =>
    obtain ⟨hi, -, -, -⟩ := hinv
    obtain ⟨hrun, -, -⟩ := (cmdReady_iff s).1 hc
    simpa [Inv, hrun, hcode] using hi
  | command cmd rest i _ hc _ ha => exact inv_commandEffect hinv hc ha
  | engine j moves _ hs => exact inv_engineEffect hinv hs

/-! ## The zero tail of BUF and `fst` (R38 (e), R24, R26, R28, R111, R114, R115), phase by phase -/

theorem messageInv_idle_iff {s : State} (hp : s.phase = .idle) : MessageInv s ↔ s.lenovf = false := by
  simp [MessageInv, hp]

theorem messageInv_absorb_iff {s : State} (hp : s.phase = .absorb) :
    MessageInv s ↔ s.fst = .terminatorPlaced ∧
      (s.run = false → zeroFrom s.M (fillPointer s.bitlen).toNat) ∧
      (s.run = true → fillPointer s.bitlen = 0) := by
  simp [MessageInv, hp]

theorem messageInv_final_iff {s : State} (hp : s.phase = .final) :
    MessageInv s ↔ (s.run = true → s.fst ≠ .terminatorPlaced) ∧
      (s.run = false → s.fst = .terminatorPlaced → zeroFrom s.M ((fillPointer s.bitlen).toNat + 1)) ∧
      (s.run = false → s.fst ≠ .terminatorPlaced → zeroFrom s.M 0) ∧
      (s.fst = .spillDispatched → 56 ≤ fillPointer s.bitlen) := by
  simp [MessageInv, hp]

theorem messageInv_done_iff {s : State} (hp : s.phase = .done) : MessageInv s ↔ zeroFrom s.M 0 := by
  simp [MessageInv, hp]

theorem messageInv_of_fault {s : State} (hp : s.phase = .fault) : MessageInv s := by
  simp [MessageInv, hp]

theorem messageInv_resetWith (dp : Datapath) : MessageInv (State.resetWith dp) :=
  (messageInv_idle_iff rfl).2 rfl

theorem zeroFrom_bufClear (n : Nat) : zeroFrom bufClear n := fun q _ => bufByte_bufClear (BitVec.ofFin q)

/-- A byte ORed in at position `p` leaves the zeros after it (R53). -/
theorem zeroFrom_bufOrByte {M : Block} {p : BitVec 6} (v : Byte) (h : zeroFrom M p.toNat) :
    zeroFrom (bufOrByte p v M) (p.toNat + 1) := by
  intro q hq
  have hne : BitVec.ofFin q ≠ p := by
    rintro rfl
    exact absurd hq (by simp)
  rw [bufByte_bufOrByte, if_neg hne]
  exact h q (by omega)

/-- ABSORB moves the fill pointer past the byte it writes, or back to 0 with the block dispatched (R111, R112). -/
theorem messageInv_absorbByte {s : State} (b : Byte) (h : MessageInv s) (hp : s.phase = .absorb)
    (hr : s.run = false) : MessageInv (absorbByte b s) := by
  obtain ⟨hfst, hzero, -⟩ := (messageInv_absorb_iff hp).1 h
  refine (messageInv_absorb_iff (by simpa using hp)).2 ⟨by simpa using hfst, ?_, ?_⟩
  · intro hrun
    have hlast : fillPointer s.bitlen ≠ 63 := by rintro h; simp [h] at hrun
    have hnext : (fillPointer (s.bitlen + 8)).toNat = (fillPointer s.bitlen).toNat + 1 := by
      rw [fillPointer_add_eight]
      bv_omega
    simp only [absorbByte_M, absorbByte_bitlen, hnext]
    exact zeroFrom_bufOrByte b (hzero hr)
  · intro hrun
    have hlast : fillPointer s.bitlen = 63 := by simpa [hr] using hrun
    rw [absorbByte_bitlen, fillPointer_add_eight, hlast]
    rfl

/-- FINAL writes the terminator at the fill pointer (R113). -/
theorem messageInv_placeTerminator {s : State} (h : MessageInv s) (hp : s.phase = .absorb) (hr : s.run = false) :
    MessageInv (placeTerminator s) := by
  obtain ⟨-, hzero, -⟩ := (messageInv_absorb_iff hp).1 h
  refine (messageInv_final_iff rfl).2 ⟨?_, fun _ _ => zeroFrom_bufOrByte 0x80 (hzero hr), ?_, ?_⟩
  · simp [hr]
  · simp
  · simp

theorem messageInv_commandEffect {i : Instr} {s : State} (h : MessageInv s) (hc : cmdReady s = true)
    (ha : allowedPhase i s.phase = true) : MessageInv (commandEffect i s) := by
  obtain ⟨hr, -, -⟩ := (cmdReady_iff s).1 hc
  cases i with
  | init => exact (messageInv_absorb_iff rfl).2 ⟨rfl, fun _ => zeroFrom_bufClear _, by simp [commandEffect, hr]⟩
  | absorb b => exact messageInv_absorbByte b h (by simpa [allowedPhase] using ha) hr
  | final => exact messageInv_placeTerminator h (by simpa [allowedPhase] using ha) hr
  | rdhex k => exact h
  | rddig j => exact h
  | rdstat => exact h
  | _ => cases ha

/-- FEEDFWD clears BUF (R139). -/
theorem messageInv_feedForward {s : State} (h : MessageInv s) : MessageInv (feedForward s) := by
  cases hp : s.phase with
  | idle => exact (messageInv_idle_iff (by exact hp)).2 ((messageInv_idle_iff hp).1 h)
  | absorb =>
    obtain ⟨hfst, -, -⟩ := (messageInv_absorb_iff hp).1 h
    exact (messageInv_absorb_iff (by exact hp)).2 ⟨hfst, fun _ => zeroFrom_bufClear _, by simp⟩
  | final =>
    obtain ⟨-, -, -, hspill⟩ := (messageInv_final_iff hp).1 h
    exact (messageInv_final_iff (by exact hp)).2
      ⟨by simp, fun _ _ => zeroFrom_bufClear _, fun _ _ => zeroFrom_bufClear _, hspill⟩
  | done => exact (messageInv_done_iff (by exact hp)).2 (zeroFrom_bufClear 0)
  | fault => exact messageInv_of_fault hp

theorem messageInv_engineEffect {j : Instr} {s : State} (h : MessageInv s) (hs : selectedStep s = some j) :
    MessageInv (engineEffect j s) := by
  rcases selectedStep_cases hs with ⟨-, -, he⟩ | ⟨-, -, rfl⟩ | ⟨-, hp, -, rfl⟩ | ⟨-, hp, -, rfl⟩ |
    ⟨hr, hp, hf, rfl⟩
  · rw [he]
    exact h
  · exact messageInv_feedForward h
  · refine (messageInv_final_iff (by simpa [engineEffect] using hp)).2 ⟨?_, ?_, ?_, ?_⟩
    · simp only [engineEffect, padFirst_fst]
      split <;> simp
    · simp [engineEffect]
    · simp [engineEffect]
    · simp [engineEffect]
  · refine (messageInv_final_iff (by simpa [engineEffect] using hp)).2 ⟨?_, ?_, ?_, ?_⟩ <;> simp [engineEffect]
  · obtain ⟨-, -, hzero, -⟩ := (messageInv_final_iff hp).1 h
    exact (messageInv_done_iff rfl).2 (hzero hr (by simp [hf]))

/-- Settles O39: by what becomes of the registers, phase by phase. -/
theorem everyStepKeepsTheBufferInvariant : Obligations.EveryStepKeepsTheBufferInvariant := by
  intro s t hm h
  cases step_result h with
  | reset dp => exact messageInv_resetWith dp
  | held => exact hm
  | faulted => exact messageInv_of_fault rfl
  | command cmd rest i _ hc _ ha => exact messageInv_commandEffect hm hc ha
  | engine j moves _ hs => exact messageInv_engineEffect hm hs

/-! ## Blocks by their bytes (R52) -/

/-- A word is known by its four bytes. -/
theorem word_ext_bytes {x y : Word} (h : ∀ n, n < 4 → byteOfWord x n = byteOfWord y n) : x = y := by
  apply BitVec.eq_of_getLsbD_eq
  intro k hk
  have hbit := congrArg (fun v : Byte => v.getLsbD (k % 8)) (h (k / 8) (by omega))
  have hmod : k / 8 % 4 = k / 8 := Nat.mod_eq_of_lt (by omega)
  have hlt : k % 8 < 8 := Nat.mod_lt _ (by decide)
  simpa [byteOfWord, BitVec.getLsbD_extractLsb', hlt, hmod, Nat.div_add_mod] using hbit

/-- Byte `q` of BUF, by the number of its word. -/
theorem bufByte_ofFin (M : Block) (q : Fin 64) :
    bufByte M (BitVec.ofFin q) = byteOfWord (bufWord M ⟨q.val / 4, by omega⟩) q.val := rfl

/-- A block is known by its sixty-four bytes. -/
theorem block_ext_bytes {M N : Block} (h : ∀ q : Fin 64, bufByte M (BitVec.ofFin q) = bufByte N (BitVec.ofFin q)) :
    M = N := by
  ext j hj : 1
  apply word_ext_bytes
  intro n hn
  have hq := h ⟨4 * j + n, by omega⟩
  have hdiv : (4 * j + n) / 4 = j := by omega
  have hmod : (4 * j + n) % 4 = n % 4 := by omega
  simpa [bufByte_ofFin, bufWord, hdiv, byteOfWord, hmod] using hq

theorem holds_bufClear : holds bufClear [] := fun q => by simp

/-- Where BUF holds `bytes` and zeros after them, `BufOrByte` at the first zero appends its byte (R53). -/
theorem holds_bufOrByte {M : Block} {bytes : List Byte} {p : BitVec 6} (v : Byte) (h : holds M bytes)
    (hp : p.toNat = bytes.length) : holds (bufOrByte p v M) (bytes ++ [v]) := by
  intro q
  rw [bufByte_bufOrByte, h q]
  by_cases hq : q.val = bytes.length
  · have hqp : BitVec.ofFin q = p := BitVec.eq_of_toNat_eq (by simpa [hp] using hq)
    simp [hqp, hq]
  · have hqp : BitVec.ofFin q ≠ p := by
      rintro rfl
      exact hq (by simpa using hp)
    rw [if_neg hqp]
    rcases Nat.lt_or_gt_of_ne hq with hlt | hgt
    · simp [List.getElem?_append_left hlt]
    · rw [List.getD_eq_default _ _ (by omega), List.getD_eq_default _ _ (by simp; omega)]

/-- The bytes of BUF after the length words are written: those below 56 kept, then `bitlen`, then four zeros
(R114, R115). -/
theorem bufByte_storeLength (bitlen : Word) (M : Block) (q : Fin 64) :
    bufByte (storeLength bitlen M) (BitVec.ofFin q) =
      if q.val < 56 then bufByte M (BitVec.ofFin q)
      else if q.val < 60 then byteOfWord bitlen q.val else 0 := by
  split
  case isTrue h => exact bufByte_storeLength_low bitlen M _ h
  rw [bufByte_ofFin]
  split
  case isTrue h56 h60 =>
    have hw : (⟨q.val / 4, by omega⟩ : Fin 16) = 14 := Fin.ext (by simp; omega)
    rw [hw, bufWord_storeLength_14]
  case isFalse h56 h60 =>
    have hw : (⟨q.val / 4, by omega⟩ : Fin 16) = 15 := Fin.ext (by simp; omega)
    rw [hw, bufWord_storeLength_15, byteOfWord_zero]

/-! ## The padded message by its bytes (R110) -/

/-- Byte `k` of a word buffer. -/
def listByte (buf : List Word) (k : Nat) : Byte := byteOfWord (buf.getD (k / 4) 0) k

@[simp] theorem length_orByteAt (buf : List Word) (n : Nat) (v : Byte) :
    (orByteAt buf n v).length = buf.length := by
  simp [orByteAt]

@[simp] theorem length_orBytesFrom (n : Nat) (bytes : List Byte) (buf : List Word) :
    (orBytesFrom n bytes buf).length = buf.length := by
  induction bytes generalizing n buf with
  | nil => rfl
  | cons v rest ih => rw [orBytesFrom, ih, length_orByteAt]

theorem listByte_orByteAt {buf : List Word} {n : Nat} (hn : n / 4 < buf.length) (v : Byte) (k : Nat) :
    listByte (orByteAt buf n v) k = if k = n then listByte buf k ||| v else listByte buf k := by
  unfold listByte orByteAt
  by_cases hw : k / 4 = n / 4
  · have hword : (buf.modify (n / 4) fun x => x ||| v.zeroExtend 32 <<< (8 * (n % 4))).getD (k / 4) 0 =
        buf.getD (k / 4) 0 ||| laneOfByte v n := by
      simp [hw, hn, laneOfByte]
    rw [hword, byteOfWord_or, byteOfWord_laneOfByte]
    have hkn : k % 4 = n % 4 ↔ k = n := by omega
    by_cases hk : k = n <;> simp [hkn, hk]
  · have hk : k ≠ n := by rintro rfl; exact hw rfl
    simp [hk, Ne.symm hw]

theorem listByte_orBytesFrom {n : Nat} {bytes : List Byte} {buf : List Word}
    (hn : n + bytes.length ≤ 4 * buf.length) (k : Nat) :
    listByte (orBytesFrom n bytes buf) k =
      if n ≤ k then listByte buf k ||| bytes.getD (k - n) 0 else listByte buf k := by
  induction bytes generalizing n buf with
  | nil => simp [orBytesFrom]
  | cons v rest ih =>
    simp only [List.length_cons] at hn
    rw [orBytesFrom, ih (by simp; omega), listByte_orByteAt (by omega)]
    rcases Nat.lt_trichotomy k n with hk | rfl | hk
    · simp [show ¬n + 1 ≤ k by omega, show ¬n ≤ k by omega, Nat.ne_of_lt hk]
    · simp
    · obtain ⟨m, rfl⟩ : ∃ m, k = n + 1 + m := ⟨k - (n + 1), by omega⟩
      have hsub : n + 1 + m - n = m + 1 := by omega
      simp [hsub, show n ≤ n + 1 + m by omega, show n + 1 + m ≠ n by omega]

/-- The number of words of the padded message (R110). -/
abbrev wordCount (L : Nat) : Nat := 16 * blockCount L

/-- The padded message before its length words: message, terminator, zeros (R110 steps 1 to 3). -/
theorem listByte_terminated (msg : List Byte) (k : Nat) :
    listByte (orByteAt (orBytesFrom 0 msg (List.replicate (wordCount msg.length) 0)) msg.length 0x80) k =
      (msg ++ [0x80]).getD k 0 := by
  have hz : listByte (List.replicate (wordCount msg.length) 0) k = 0 := by
    simp only [listByte, List.getD_eq_getElem?_getD, List.getElem?_replicate]
    split <;> exact byteOfWord_zero k
  have hcount : msg.length + 8 < 64 * blockCount msg.length := by
    unfold blockCount
    omega
  rw [listByte_orByteAt (by simp [wordCount]; omega), listByte_orBytesFrom (by simp [wordCount]; omega), hz]
  rcases Nat.lt_trichotomy k msg.length with hk | rfl | hk
  · simp [Nat.ne_of_lt hk, List.getElem?_append_left hk]
  · simp
  · rw [List.getD_eq_default (msg ++ [0x80]) _ (by simp; omega)]
    simp [Nat.ne_of_gt hk, List.getElem?_eq_none (Nat.le_of_lt hk)]

/-- Outside the low length word the padded message is the message, 0x80 and zeros (R110). -/
theorem listByte_paddedMessage {msg : List Byte} {k : Nat} (hk : k / 4 ≠ wordCount msg.length - 2) :
    listByte (paddedMessage msg) k = (msg ++ [0x80]).getD k 0 := by
  rw [← listByte_terminated]
  simp [listByte, paddedMessage, List.getElem?_set_ne (Ne.symm hk)]

/-- The low length word (R110 step 4). -/
theorem getD_paddedMessage_length (msg : List Byte) :
    (paddedMessage msg).getD (wordCount msg.length - 2) 0 = BitVec.ofNat 32 (8 * msg.length) := by
  have h : wordCount msg.length - 2 < wordCount msg.length := by
    simp only [wordCount, blockCount]
    omega
  simp [paddedMessage, h]

/-! ## The blocks of the padded message (R117) -/

theorem bufByte_messageBlock (msg : List Byte) (n : Nat) (q : Fin 64) :
    bufByte (messageBlock msg n) (BitVec.ofFin q) = listByte (paddedMessage msg) (64 * n + q.val) := by
  have hdiv : (64 * n + q.val) / 4 = 16 * n + q.val / 4 := by omega
  have hmod : (64 * n + q.val) % 4 = q.val % 4 := by omega
  simp [bufByte_ofFin, bufWord, messageBlock, listByte, byteOfWord, hdiv, hmod]

/-- A block before the last holds message, terminator and zeros only. -/
theorem bufByte_messageBlock_inner {msg : List Byte} {n : Nat} (hn : n + 1 < blockCount msg.length) (q : Fin 64) :
    bufByte (messageBlock msg n) (BitVec.ofFin q) = (msg ++ [0x80]).getD (64 * n + q.val) 0 := by
  rw [bufByte_messageBlock, listByte_paddedMessage]
  simp only [wordCount]
  omega

/-- The last block ends with the length words. -/
theorem bufByte_messageBlock_last {msg : List Byte} {n : Nat} (hn : n + 1 = blockCount msg.length) (q : Fin 64) :
    bufByte (messageBlock msg n) (BitVec.ofFin q) =
      if q.val < 56 then (msg ++ [0x80]).getD (64 * n + q.val) 0
      else if q.val < 60 then byteOfWord (BitVec.ofNat 32 (8 * msg.length)) q.val else 0 := by
  have hcount : msg.length + 8 < 64 * (n + 1) := by
    rw [hn, blockCount]
    omega
  rw [bufByte_messageBlock]
  by_cases hlen : (64 * n + q.val) / 4 = wordCount msg.length - 2
  · have hq : ¬q.val < 56 ∧ q.val < 60 := by
      simp only [wordCount] at hlen
      omega
    have hmod : (64 * n + q.val) % 4 = q.val % 4 := by omega
    rw [listByte, hlen, getD_paddedMessage_length]
    simp [hq, byteOfWord, hmod]
  · rw [listByte_paddedMessage hlen]
    simp only [wordCount] at hlen
    split
    · rfl
    · rw [if_neg (by omega), List.getD_eq_default _ _ (by simp; omega)]

/-- A full block of the message does not depend on what is absorbed after it. -/
theorem messageBlock_append (msg : List Byte) (b : Byte) {n : Nat} (hn : n < msg.length / 64) :
    messageBlock (msg ++ [b]) n = messageBlock msg n := by
  apply block_ext_bytes
  intro q
  have hq : 64 * n + q.val < msg.length := by omega
  rw [bufByte_messageBlock_inner (by simp [blockCount]; omega),
    bufByte_messageBlock_inner (by simp [blockCount]; omega)]
  simp [List.getElem?_append_left, hq, Nat.lt_succ_of_lt hq]

/-- The chaining value after full blocks does not depend on what is absorbed after them (R157). -/
theorem chainValue_append (msg : List Byte) (b : Byte) {n : Nat} (hn : n ≤ msg.length / 64) :
    chainValue (msg ++ [b]) n = chainValue msg n := by
  induction n with
  | zero => rfl
  | succ n ih => rw [chainValue, chainValue, ih (by omega), messageBlock_append msg b (by omega)]

/-! ## What Tracks says, stage by stage -/

/-- `bitlen` and `lenovf` count the bytes of `msg` (R25, R26). -/
abbrev CountsBytes (msg : List Byte) (s : State) : Prop :=
  s.bitlen = BitVec.ofNat 32 (8 * msg.length) ∧ s.lenovf = decide (2 ^ 29 ≤ msg.length)

section Stages
variable {msg : List Byte} {s : State}

theorem tracks_of_noMessage (hp : s.phase = .idle ∨ s.phase = .fault) : Tracks msg s := by
  rcases hp with hp | hp <;> constructor <;> simp [hp]

theorem tracks_filling (hp : s.phase = .absorb) (hr : s.run = false) (hlen : CountsBytes msg s)
    (hM : holds s.M (openBytes msg)) (hH : s.H = chainValue msg (msg.length / 64)) : Tracks msg s := by
  constructor
  case length => exact fun _ => hlen
  case filling => exact fun _ _ => ⟨hM, hH⟩
  all_goals simp [hp, hr]

theorem tracks_fullBlock (hp : s.phase = .absorb) (hr : s.run = true) (hlen : CountsBytes msg s)
    (hne : msg ≠ []) (hmod : msg.length % 64 = 0) (hc : Compressing msg (msg.length / 64 - 1) s) :
    Tracks msg s := by
  constructor
  case length => exact fun _ => hlen
  case fullBlock => exact fun _ _ => ⟨hne, hmod, hc⟩
  all_goals simp [hp, hr]

theorem tracks_terminated (hp : s.phase = .final) (hr : s.run = false) (hf : s.fst = .terminatorPlaced)
    (hlen : CountsBytes msg s) (hM : holds s.M (openBytes msg ++ [0x80]))
    (hH : s.H = chainValue msg (msg.length / 64)) : Tracks msg s := by
  constructor
  case length => exact fun _ => hlen
  case terminated => exact fun _ _ _ => ⟨hM, hH⟩
  all_goals simp [hp, hr, hf]

theorem tracks_spillBlock (hp : s.phase = .final) (hr : s.run = true) (hf : s.fst = .spillDispatched)
    (hlen : CountsBytes msg s) (hmod : 56 ≤ msg.length % 64) (hc : Compressing msg (msg.length / 64) s) :
    Tracks msg s := by
  constructor
  case length => exact fun _ => hlen
  case spillBlock => exact fun _ _ _ => ⟨hmod, hc⟩
  all_goals simp [hp, hr, hf]

theorem tracks_spilled (hp : s.phase = .final) (hr : s.run = false) (hf : s.fst = .spillDispatched)
    (hlen : CountsBytes msg s) (hmod : 56 ≤ msg.length % 64) (hM : holds s.M [])
    (hH : s.H = chainValue msg (msg.length / 64 + 1)) : Tracks msg s := by
  constructor
  case length => exact fun _ => hlen
  case spilled => exact fun _ _ _ => ⟨hmod, hM, hH⟩
  all_goals simp [hp, hr, hf]

theorem tracks_lastBlock (hp : s.phase = .final) (hr : s.run = true) (hf : s.fst = .lengthDispatched)
    (hlen : CountsBytes msg s) (hc : Compressing msg (blockCount msg.length - 1) s) : Tracks msg s := by
  constructor
  case length => exact fun _ => hlen
  case lastBlock => exact fun _ _ _ => hc
  all_goals simp [hp, hr, hf]

theorem tracks_finished (hp : s.phase = .final) (hr : s.run = false) (hf : s.fst = .lengthDispatched)
    (hlen : CountsBytes msg s) (hM : holds s.M []) (hH : s.H = md5State msg) : Tracks msg s := by
  constructor
  case length => exact fun _ => hlen
  case finished => exact fun _ _ _ => ⟨hM, hH⟩
  all_goals simp [hp, hr, hf]

theorem tracks_digest (hp : s.phase = .done) (hlen : CountsBytes msg s) (hH : s.H = md5State msg) :
    Tracks msg s := by
  constructor
  case length => exact fun _ => hlen
  case digest => exact fun _ => hH
  all_goals simp [hp]

end Stages

/-! ## Length and fill pointer -/

theorem fillPointer_of_length (L : Nat) : (fillPointer (BitVec.ofNat 32 (8 * L))).toNat = L % 64 := by
  rw [fillPointer_toNat, BitVec.toNat_ofNat]
  omega

/-- One more byte: `lenovf` is set exactly when the count reaches 2^29 (R25, R26). -/
theorem countsBytes_absorbByte {msg : List Byte} {s : State} (b : Byte) (h : CountsBytes msg s) :
    CountsBytes (msg ++ [b]) (absorbByte b s) := by
  obtain ⟨hlen, hovf⟩ := h
  constructor
  · rw [absorbByte_bitlen, hlen, List.length_append, List.length_singleton, Nat.mul_add, BitVec.ofNat_add]
    rfl
  · have hwrap : BitVec.ofNat 32 (8 * msg.length) = 0xfffffff8 ↔ (8 * msg.length) % 2 ^ 32 = 2 ^ 32 - 8 := by
      rw [← BitVec.toNat_inj, BitVec.toNat_ofNat]
      rfl
    rw [absorbByte_lenovf, hlen, hovf, lenovfAfterAbsorb, List.length_append, List.length_singleton]
    split
    case isTrue hw =>
      have := hwrap.1 hw
      exact (decide_eq_true (by omega)).symm
    case isFalse hw =>
      have := mt hwrap.2 hw
      exact decide_eq_decide.2 (by omega)

/-! ## The open bytes of the message (R117) -/

theorem length_openBytes (msg : List Byte) : (openBytes msg).length = msg.length % 64 := by
  rw [openBytes, List.length_drop]
  omega

theorem openBytes_of_full {msg : List Byte} (h : msg.length % 64 = 0) : openBytes msg = [] :=
  List.drop_eq_nil_of_le (by omega)

/-- A byte after the open bytes is that byte after the message. -/
theorem openBytes_append_singleton (msg : List Byte) (v : Byte) :
    openBytes msg ++ [v] = (msg ++ [v]).drop (64 * (msg.length / 64)) := by
  rw [openBytes, List.drop_append_of_le_length (by omega)]

theorem getD_openBytes (msg : List Byte) (q : Nat) :
    (openBytes msg).getD q 0 = msg.getD (64 * (msg.length / 64) + q) 0 := by
  simp [openBytes]

theorem getD_openBytes_append_singleton (msg : List Byte) (v : Byte) (q : Nat) :
    (openBytes msg ++ [v]).getD q 0 = (msg ++ [v]).getD (64 * (msg.length / 64) + q) 0 := by
  simp [openBytes_append_singleton]

/-- ABSORB of a byte that does not fill the block extends the open bytes. -/
theorem openBytes_append {msg : List Byte} (b : Byte) (h : msg.length % 64 ≠ 63) :
    openBytes (msg ++ [b]) = openBytes msg ++ [b] := by
  have hdiv : (msg.length + 1) / 64 = msg.length / 64 := by omega
  rw [openBytes_append_singleton, openBytes, List.length_append, List.length_singleton, hdiv]

/-! ## BUF as a block of the padded message -/

theorem eq_messageBlock_inner {M : Block} {msg bytes : List Byte} {n : Nat} (hM : holds M bytes)
    (hn : n + 1 < blockCount msg.length)
    (hb : ∀ q, q < 64 → bytes.getD q 0 = (msg ++ [0x80]).getD (64 * n + q) 0) : M = messageBlock msg n :=
  block_ext_bytes fun q => by rw [hM q, hb q q.isLt, bufByte_messageBlock_inner hn]

theorem storeLength_eq_messageBlock {M : Block} {msg bytes : List Byte} {n : Nat} (hM : holds M bytes)
    (hn : n + 1 = blockCount msg.length)
    (hb : ∀ q, q < 56 → bytes.getD q 0 = (msg ++ [0x80]).getD (64 * n + q) 0) :
    storeLength (BitVec.ofNat 32 (8 * msg.length)) M = messageBlock msg n :=
  block_ext_bytes fun q => by
    rw [bufByte_storeLength, bufByte_messageBlock_last hn]
    split
    case isTrue hq => rw [hM q, hb q hq]
    case isFalse => rfl

/-! ## One compression (R134, R139, R140) -/

theorem compressing_dispatched {msg : List Byte} {n : Nat} {s : State} (hH : s.H = chainValue msg n)
    (hM : s.M = messageBlock msg n) (hw : s.w = s.H) (hi : s.i = 0) : Compressing msg n s where
  chain := hH
  block := hM
  rounds := by rw [hi, hw]; rfl

theorem compressing_round {msg : List Byte} {n : Nat} {s : State} (h : Compressing msg n s) (hi : s.i < 64) :
    Compressing msg n { s with w := roundFn (roundIndex s.i) s.w s.M, i := s.i + 1 } where
  chain := h.chain
  block := h.block
  rounds := by
    have hnext : (s.i + 1).toNat = s.i.toNat + 1 := by bv_omega
    have hidx : BitVec.ofNat 6 s.i.toNat = roundIndex s.i := by
      apply BitVec.eq_of_toNat_eq
      simp [roundIndex, BitVec.extractLsb'_toNat]
    rw [hnext, roundsFn, hidx, ← h.rounds]

theorem compressing_ports {msg : List Byte} {n : Nat} {s : State} {rst : Bool} {rsp : Option Byte}
    {moves : List HostMove} {draws : Nat} (h : Compressing msg n s) :
    Compressing msg n { s with rst := rst, rsp := rsp, port := moves, draws := draws } :=
  ⟨h.chain, h.block, h.rounds⟩

/-- A step that writes at most a to d and `i` of the registers keeps Tracks where it goes on with the
compression in progress. -/
theorem tracks_of_compressing {msg : List Byte} {s : State} {w : Quad} {i : BitVec 7} {rst : Bool}
    {rsp : Option Byte} {moves : List HostMove} {draws : Nat} (h : Tracks msg s)
    (hc : ∀ n, s.run = true → Compressing msg n s →
      Compressing msg n { s with w := w, i := i, rst := rst, rsp := rsp, port := moves, draws := draws }) :
    Tracks msg { s with w := w, i := i, rst := rst, rsp := rsp, port := moves, draws := draws } where
  length := h.length
  filling := h.filling
  fullBlock := fun hp hr =>
    have ⟨hne, hmod, hcomp⟩ := h.fullBlock hp hr
    ⟨hne, hmod, hc _ hr hcomp⟩
  terminated := h.terminated
  running := h.running
  spillBlock := fun hp hr hf =>
    have ⟨hmod, hcomp⟩ := h.spillBlock hp hr hf
    ⟨hmod, hc _ hr hcomp⟩
  spilled := h.spilled
  lastBlock := fun hp hr hf => hc _ hr (h.lastBlock hp hr hf)
  finished := h.finished
  digest := h.digest

/-- Tracks reads the registers alone. -/
theorem tracks_ports {msg : List Byte} {s : State} {rst : Bool} {rsp : Option Byte} {moves : List HostMove}
    {draws : Nat} (h : Tracks msg s) :
    Tracks msg { s with rst := rst, rsp := rsp, port := moves, draws := draws } :=
  tracks_of_compressing h fun _ _ => compressing_ports

/-- After the last round FEEDFWD gives the next chaining value. -/
theorem chainValue_of_compressing {msg : List Byte} {n : Nat} {s : State} (h : Compressing msg n s)
    (hi : s.i = 64) : quadAdd s.H s.w = chainValue msg (n + 1) := by
  rw [chainValue, compress, ← h.chain, ← h.block, h.rounds, hi]
  rfl

/-! ## Commands -/

/-- What a command that executes makes of the message absorbed since INIT (R14). -/
def absorbedAfter : Instr → List Byte → List Byte
  | .init, _ => []
  | .absorb b, msg => msg ++ [b]
  | _, msg => msg

theorem messageAfter_of_not_accepted {msg : List Byte} {s : State}
    (h : ∀ cmd rest, s.port = .cmd cmd :: rest → cmdReady s = false) : messageAfter msg s = msg := by
  unfold messageAfter
  split <;> simp_all

theorem messageAfter_of_executes {msg : List Byte} {s : State} {cmd : BitVec 12} {rest : List HostMove} {i : Instr}
    (hp : s.port = .cmd cmd :: rest) (hc : cmdReady s = true) (hd : decodeCmd cmd = .ok i)
    (ha : allowedPhase i s.phase = true) : messageAfter msg s = absorbedAfter i msg := by
  have hinit : ∀ (op : BitVec 4) (imm : Byte), op ≠ 0x1 → cmdWord op imm ≠ 0x100 :=
    fun op imm hop hw => hop (by rw [← opOf_cmdWord op imm, hw]; rfl)
  simp only [messageAfter, hp, hc, Bool.true_eq_false, if_false]
  rcases decodeCmd_word hd with ⟨rfl, rfl⟩ | ⟨b, rfl, rfl⟩ | ⟨rfl, rfl⟩ | ⟨k, rfl, rfl, -⟩ | ⟨j, rfl, rfl, -⟩ |
    ⟨rfl, rfl⟩
  · rw [if_pos ⟨rfl, by simpa [allowedPhase] using ha⟩]
    rfl
  · have hph : s.phase = .absorb := by simpa [allowedPhase] using ha
    simp [hph, absorbedAfter]
  · simp [absorbedAfter, opOf]
  · rw [if_neg fun h => hinit _ _ (by decide) h.1]
    simp [absorbedAfter]
  · rw [if_neg fun h => hinit _ _ (by decide) h.1]
    simp [absorbedAfter]
  · simp [absorbedAfter, opOf]

/-- INIT begins with no byte absorbed (R151). -/
theorem tracks_startMessage {s : State} (hr : s.run = false) : Tracks [] (startMessage s) := by
  refine tracks_filling rfl hr ⟨rfl, rfl⟩ ?_ rfl
  rw [openBytes_of_full rfl]
  exact holds_bufClear

/-- ABSORB of a byte that leaves the block open. -/
theorem tracks_absorbByte_open {msg : List Byte} {s : State} (b : Byte) (h : Tracks msg s)
    (hp : s.phase = .absorb) (hr : s.run = false) (hmod : msg.length % 64 ≠ 63) :
    Tracks (msg ++ [b]) (absorbByte b s) := by
  have hlen := h.length (.inl hp)
  obtain ⟨hM, hH⟩ := h.filling hp hr
  have hfill : (fillPointer s.bitlen).toNat = msg.length % 64 := by rw [hlen.1, fillPointer_of_length]
  have hlast : fillPointer s.bitlen ≠ 63 := by
    intro he
    rw [he] at hfill
    exact hmod hfill.symm
  have hdiv : (msg ++ [b]).length / 64 = msg.length / 64 := by simp; omega
  apply tracks_filling (by simpa using hp) (by rw [absorbByte_run, if_neg hlast, hr])
    (countsBytes_absorbByte b hlen)
  · rw [absorbByte_M, openBytes_append b hmod]
    exact holds_bufOrByte b hM (by rw [hfill, length_openBytes])
  · rw [absorbByte_H, hH, hdiv, chainValue_append msg b (Nat.le_refl _)]

/-- ABSORB of the byte that fills the block dispatches it (R112, R117). -/
theorem tracks_absorbByte_full {msg : List Byte} {s : State} (b : Byte) (h : Tracks msg s)
    (hp : s.phase = .absorb) (hr : s.run = false) (hmod : msg.length % 64 = 63) :
    Tracks (msg ++ [b]) (absorbByte b s) := by
  have hlen := h.length (.inl hp)
  obtain ⟨hM, hH⟩ := h.filling hp hr
  have hfill : (fillPointer s.bitlen).toNat = msg.length % 64 := by rw [hlen.1, fillPointer_of_length]
  have hlast : fillPointer s.bitlen = 63 := BitVec.eq_of_toNat_eq (by rw [hfill, hmod]; rfl)
  have hcount : (msg ++ [b]).length / 64 - 1 = msg.length / 64 := by simp; omega
  apply tracks_fullBlock (by simpa using hp) (by simp [hlast]) (countsBytes_absorbByte b hlen) (by simp)
    (by simp; omega)
  rw [hcount]
  apply compressing_dispatched
  · rw [absorbByte_H, hH, chainValue_append msg b (Nat.le_refl _)]
  · rw [absorbByte_M]
    apply eq_messageBlock_inner (holds_bufOrByte b hM (by rw [hfill, length_openBytes]))
      (by simp [blockCount]; omega)
    intro q hq
    have hin : 64 * (msg.length / 64) + q < (msg ++ [b]).length := by simp; omega
    rw [getD_openBytes_append_singleton, List.getD_append _ _ _ _ hin]
  · simp [hlast]
  · simp [hlast]

/-- FINAL writes 0x80 after the open bytes (R113). -/
theorem tracks_placeTerminator {msg : List Byte} {s : State} (h : Tracks msg s) (hp : s.phase = .absorb)
    (hr : s.run = false) : Tracks msg (placeTerminator s) := by
  have hlen := h.length (.inl hp)
  obtain ⟨hM, hH⟩ := h.filling hp hr
  refine tracks_terminated rfl hr rfl hlen ?_ hH
  rw [placeTerminator_M]
  exact holds_bufOrByte 0x80 hM (by rw [hlen.1, fillPointer_of_length, length_openBytes])

theorem tracks_commandEffect {msg : List Byte} {i : Instr} {s : State} (h : Tracks msg s) (hc : cmdReady s = true)
    (ha : allowedPhase i s.phase = true) : Tracks (absorbedAfter i msg) (commandEffect i s) := by
  obtain ⟨hr, -, -⟩ := (cmdReady_iff s).1 hc
  cases i with
  | init => exact tracks_startMessage hr
  | absorb b =>
    have hp : s.phase = .absorb := by simpa [allowedPhase] using ha
    by_cases hmod : msg.length % 64 = 63
    · exact tracks_absorbByte_full b h hp hr hmod
    · exact tracks_absorbByte_open b h hp hr hmod
  | final => exact tracks_placeTerminator h (by simpa [allowedPhase] using ha) hr
  | rdhex k => exact tracks_ports h
  | rddig j => exact tracks_ports h
  | rdstat => exact tracks_ports h
  | _ => cases ha

/-! ## Engine steps -/

/-- The bytes of a terminated open block are those of the padded message (R110, R117). -/
theorem getD_terminated (msg : List Byte) (q : Nat) :
    (openBytes msg ++ [0x80]).getD q 0 = (msg ++ [0x80]).getD (64 * (msg.length / 64) + q) 0 :=
  getD_openBytes_append_singleton msg 0x80 q

/-- FEEDFWD ends the compression of a full block, of the spilled block or of the last block (R117, R139). -/
theorem tracks_feedForward {msg : List Byte} {s : State} (hinv : Inv s) (h : Tracks msg s) (hr : s.run = true)
    (hi : s.i = 64) : Tracks msg (feedForward s) := by
  obtain ⟨-, hphase, -, -⟩ := hinv
  rcases hphase hr with hp | hp
  · have hlen := h.length (.inl hp)
    obtain ⟨hne, hmod, hcomp⟩ := h.fullBlock hp hr
    have hpos := List.length_pos_iff.2 hne
    have hcount : msg.length / 64 - 1 + 1 = msg.length / 64 := by omega
    refine tracks_filling hp rfl hlen ?_ ?_
    · rw [openBytes_of_full hmod]
      exact holds_bufClear
    · rw [feedForward_H, chainValue_of_compressing hcomp hi, hcount]
  · have hlen := h.length (.inr (.inl hp))
    cases hf : s.fst with
    | terminatorPlaced => exact absurd hf (h.running hp hr)
    | spillDispatched =>
      obtain ⟨hmod, hcomp⟩ := h.spillBlock hp hr hf
      exact tracks_spilled hp rfl hf hlen hmod holds_bufClear
        (chainValue_of_compressing hcomp hi)
    | lengthDispatched =>
      exact tracks_finished hp rfl hf hlen holds_bufClear
        (chainValue_of_compressing (h.lastBlock hp hr hf) hi)

/-- PADSTEP0 dispatches the last block, or the one before it where the length words do not fit (R114). -/
theorem tracks_padFirst {msg : List Byte} {s : State} (h : Tracks msg s) (hp : s.phase = .final)
    (hr : s.run = false) (hf : s.fst = .terminatorPlaced) : Tracks msg (padFirst s) := by
  have hlen := h.length (.inr (.inl hp))
  obtain ⟨hM, hH⟩ := h.terminated hp hr hf
  have hfill : (fillPointer s.bitlen).toNat = msg.length % 64 := by rw [hlen.1, fillPointer_of_length]
  by_cases hspill : fillPointer s.bitlen ≥ 56
  · have hmod : 56 ≤ msg.length % 64 := by rw [← hfill]; exact hspill
    have hM' : s.M = messageBlock msg (msg.length / 64) :=
      eq_messageBlock_inner hM (by rw [blockCount]; omega) fun q _ => getD_terminated msg q
    rw [padFirst, if_pos hspill]
    exact tracks_spillBlock (by exact hp) rfl rfl hlen hmod (compressing_dispatched hH hM' rfl rfl)
  · have hmod : ¬56 ≤ msg.length % 64 := by rw [← hfill]; exact hspill
    have hcount : blockCount msg.length = msg.length / 64 + 1 := by rw [blockCount]; omega
    have hM' : storeLength s.bitlen s.M = messageBlock msg (msg.length / 64) := by
      rw [hlen.1]
      exact storeLength_eq_messageBlock hM hcount.symm fun q _ => getD_terminated msg q
    rw [padFirst, if_neg hspill]
    refine tracks_lastBlock (by exact hp) rfl rfl hlen ?_
    rw [hcount]
    exact compressing_dispatched hH hM' rfl rfl

/-- PADSTEP1 dispatches the block of zeros and the length after a spill (R115). -/
theorem tracks_dispatchLengthBlock {msg : List Byte} {s : State} (h : Tracks msg s) (hp : s.phase = .final)
    (hr : s.run = false) (hf : s.fst = .spillDispatched) : Tracks msg (dispatchLengthBlock s) := by
  have hlen := h.length (.inr (.inl hp))
  obtain ⟨hmod, hM, hH⟩ := h.spilled hp hr hf
  have hcount : blockCount msg.length = msg.length / 64 + 1 + 1 := by rw [blockCount]; omega
  have hM' : storeLength s.bitlen s.M = messageBlock msg (msg.length / 64 + 1) := by
    rw [hlen.1]
    refine storeLength_eq_messageBlock hM hcount.symm fun q _ => ?_
    rw [List.getD_nil, List.getD_eq_default _ _ (by simp; omega)]
  refine tracks_lastBlock (by exact hp) rfl rfl hlen ?_
  rw [hcount]
  exact compressing_dispatched hH hM' rfl rfl

theorem tracks_engineEffect {msg : List Byte} {j : Instr} {s : State} (hinv : Inv s) (h : Tracks msg s)
    (hs : selectedStep s = some j) : Tracks msg (engineEffect j s) := by
  rcases selectedStep_cases hs with ⟨-, hi, he⟩ | ⟨hr, hi, rfl⟩ | ⟨hr, hp, hf, rfl⟩ | ⟨hr, hp, hf, rfl⟩ |
    ⟨hr, hp, hf, rfl⟩
  · rw [he]
    exact tracks_of_compressing h fun n _ hcomp => compressing_round hcomp hi
  · exact tracks_feedForward hinv h hr hi
  · exact tracks_padFirst h hp hr hf
  · exact tracks_dispatchLengthBlock h hp hr hf
  · exact tracks_digest rfl (h.length (.inr (.inl hp))) (h.finished hp hr hf).2

/-- Settles O40: by what becomes of the registers, stage by stage. -/
theorem everyStepKeepsTheMessage : Obligations.EveryStepKeepsTheMessage := by
  intro s t msg hinv hm h
  cases step_result h with
  | reset dp => exact tracks_of_noMessage (.inl rfl)
  | held rst rsp moves draws hw =>
    by_cases hf : s.phase = .fault
    · exact tracks_of_noMessage (.inr hf)
    · rw [messageAfter_of_not_accepted fun cmd rest hp => by simpa using mt (hw cmd rest hp) hf]
      exact tracks_ports hm
  | faulted => exact tracks_of_noMessage (.inr rfl)
  | command cmd rest i hp hc hd ha =>
    rw [messageAfter_of_executes hp hc hd ha]
    exact tracks_commandEffect (tracks_ports hm) hc ha
  | engine j moves hc hs =>
    rw [messageAfter_of_not_accepted fun _ _ _ => hc]
    exact tracks_ports (tracks_engineEffect hinv (tracks_ports hm) hs)

/-! ## R37 and R38 from reset -/

theorem statusByte_resetWith (dp : Datapath) : statusByte (State.resetWith dp) = 0x00 := by
  show 0#1 ++ FaultCode.none.code ++ BitVec.ofBool false ++ Phase.idle.code = 0x00
  decide

/-- Settles O36: every control register by its reset value. -/
theorem resetStateIsAsTheSpecSays : Obligations.ResetStateIsAsTheSpecSays :=
  ⟨fun dp => ⟨rfl, rfl, rfl, rfl, rfl, rfl, statusByte_resetWith dp, rfl, rfl, rfl, rfl⟩, _, rfl⟩

/-- Settles O37: phase IDLE asks for control registers only. -/
theorem invariantsHoldAfterReset : Obligations.InvariantsHoldAfterReset :=
  fun dp => ⟨inv_resetWith dp, messageInv_resetWith dp, fun _ => tracks_of_noMessage (.inl rfl)⟩

/-- The two invariants hold along every run. -/
theorem inv_tracks_of_run {k : Nat} {msg : List Byte} {s t : State} (hinv : Inv s) (hm : Tracks msg s)
    (h : runSteps k s = .next t) : Inv t ∧ Tracks (messageAfterRun k msg s) t := by
  induction k generalizing msg s with
  | zero =>
    cases h
    exact ⟨hinv, hm⟩
  | succ k ih =>
    cases hs : step s with
    | next u =>
      rw [runSteps_succ hs] at h
      simp only [messageAfterRun, hs]
      exact ih (everyStepKeepsTheInvariant s u hinv hs) (everyStepKeepsTheMessage s u msg hinv hm hs) h
    | fault r => cases r
    | refused r =>
      rw [runSteps_succ_eq, hs] at h
      cases h

/-- Settles O41: the invariants of O38 and O40 along the run, read out in the words of R38. -/
theorem reachableStatesMeetTheInvariants : Obligations.ReachableStatesMeetTheInvariants := by
  intro dp moves k s h msg n p
  obtain ⟨hinv, hm⟩ : Inv s ∧ Tracks msg s :=
    inv_tracks_of_run (inv_resetWith dp)
      (tracks_of_noMessage (.inl rfl)) h
  obtain ⟨hi, hrun, hcode, hlen⟩ := hinv
  refine ⟨⟨?_, ?_, hi, ?_⟩, hrun, ?_, hlen, ?_, fun hp hr => (hm.filling hp hr).2, hm.digest⟩
  · cases s.phase <;> decide
  · cases s.fst <;> decide
  · cases s.fcode <;> decide
  · rw [← hcode]
    cases s.fcode <;> decide
  · intro hp hr
    obtain ⟨hM, -⟩ := hm.filling hp hr
    have hstart : n - p = 64 * (n / 64) := by omega
    constructor
    · intro q _
      rw [hM q, getD_openBytes, hstart]
    · intro q hq
      rw [hM q, List.getD_eq_default _ _ (by rw [length_openBytes]; exact hq)]

/-! ## STATUS (R31, R185) -/

/-- The four fields of the status byte. -/
theorem statusByte_fields (s : State) :
    (statusByte s).extractLsb' 0 3 = s.phase.code ∧ (statusByte s).getLsbD 3 = s.lenovf ∧
    (statusByte s).extractLsb' 4 3 = s.fcode.code ∧ (statusByte s).getLsbD 7 = false := by
  unfold statusByte
  cases s.phase <;> cases s.lenovf <;> cases s.fcode <;> decide

/-- Settles O12: RDSTAT responds with the status byte. -/
theorem rdstatRespondsWithStatus : Obligations.RdstatRespondsWithStatus :=
  fun s hc => ⟨statusByte s, exec_rdstat hc, statusByte_fields s⟩

/-- Settles O13: by the phase, with `fcode` = 0 outside FAULT and `lenovf` = 0 in IDLE. -/
theorem statusTakesNineValues : Obligations.StatusTakesNineValues := by
  intro s hinv hm hc
  refine ⟨statusByte s, exec_rdstat hc, ?_⟩
  obtain ⟨-, -, hcode, -⟩ := hinv
  obtain ⟨-, hfinal, -⟩ := (cmdReady_iff s).1 hc
  unfold statusByte
  cases hp : s.phase with
  | idle =>
    have hf : s.fcode = .none := by simpa [hp] using hcode
    rw [hf, (messageInv_idle_iff hp).1 hm]
    decide
  | absorb =>
    have hf : s.fcode = .none := by simpa [hp] using hcode
    rw [hf]
    cases s.lenovf <;> decide
  | final => exact absurd hp hfinal
  | done =>
    have hf : s.fcode = .none := by simpa [hp] using hcode
    rw [hf]
    cases s.lenovf <;> decide
  | fault =>
    cases hf : s.fcode with
    | none => simp [hp, hf] at hcode
    | illegalCmd => cases s.lenovf <;> decide
    | seqErr => cases s.lenovf <;> decide

/-! ## The command port (R32) -/

/-- Settles O6: the word is accepted and decoded. -/
theorem stepRunsTheDecodedCommand : Obligations.StepRunsTheDecodedCommand := by
  intro s cmd rest i hp hc hd
  rw [step_cmd_ready hp hc, acceptWord, hd]

/-- A busy engine takes the selected step. -/
theorem withoutCommand_selected {s : State} {j : Instr} (hr : s.rst = false) (hc : cmdReady s = false)
    (hs : selectedStep s = some j) : withoutCommand s = .next (noResponse (engineEffect j s)) := by
  rw [withoutCommand_engine hr hc, engineStep_selected hs, exec_selected hr hs]

/-- Everything a step without a transfer can do, its one refusal among them (R6, R155, R230, U7). -/
theorem withoutCommand_cases (s : State) :
    (s.rst = true ∧ withoutCommand s = .next (underReset s)) ∨
    (cmdReady s = true ∧ withoutCommand s = .next (noResponse s)) ∨
    (∃ j, s.rst = false ∧ cmdReady s = false ∧ selectedStep s = some j ∧
      withoutCommand s = .next (noResponse (engineEffect j s))) ∨
    (s.run = true ∧ 64 < s.i ∧ s.rst = false ∧ cmdReady s = false ∧ selectedStep s = none ∧
      withoutCommand s = .refused .noRule) := by
  rcases Bool.eq_false_or_eq_true s.rst with hr | hr
  · exact .inl ⟨hr, withoutCommand_reset hr⟩
  rcases Bool.eq_false_or_eq_true (cmdReady s) with hc | hc
  · exact .inr (.inl ⟨hc, withoutCommand_held hc⟩)
  cases hs : selectedStep s with
  | some j => exact .inr (.inr (.inl ⟨j, hr, hc, rfl, withoutCommand_selected hr hc hs⟩))
  | none =>
    obtain ⟨hrun, hi⟩ := selectedStep_eq_none hs hc hr
    refine .inr (.inr (.inr ⟨hrun, hi, hr, hc, rfl, ?_⟩))
    rw [withoutCommand_engine hr hc, engineStep_noRule hs]

/-- A step under reset neither reads nor writes the port. -/
theorem underReset_withPort (s : State) (moves : List HostMove) :
    underReset { s with port := moves } = { underReset s with port := moves } := by
  unfold underReset
  split <;> rfl

/-- A step without a transfer neither reads nor writes the port. -/
theorem withoutCommand_next_withPort {s t : State} (moves : List HostMove) (h : withoutCommand s = .next t) :
    withoutCommand { s with port := moves } = .next { t with port := moves } := by
  rcases withoutCommand_cases s with ⟨hr, he⟩ | ⟨hc, he⟩ | ⟨j, hr, hc, hs, he⟩ | ⟨-, -, -, -, -, he⟩ <;>
    rw [he] at h <;> cases h
  · rw [withoutCommand_reset (by exact hr), underReset_withPort]
  · exact withoutCommand_held (by exact hc)
  · rw [withoutCommand_selected (by exact hr) (by exact hc) (by exact hs), engineEffect_port]
    rfl

theorem withoutCommand_refused_withPort {s : State} {r : Refusal} (moves : List HostMove)
    (h : withoutCommand s = .refused r) : withoutCommand { s with port := moves } = .refused r := by
  rcases withoutCommand_cases s with ⟨-, he⟩ | ⟨-, he⟩ | ⟨j, -, -, -, he⟩ | ⟨-, -, hr, hc, hs, he⟩ <;>
    rw [he] at h <;> cases h
  rw [withoutCommand_engine (by exact hr) (by exact hc), engineStep_noRule (by exact hs)]

/-- Settles O9: a step without a transfer does not look at the port. -/
theorem commandPresentedEarlyHasNoEffect : Obligations.CommandPresentedEarlyHasNoEffect := by
  intro s cmd rest hp hc
  have hself : s = { s with port := .cmd cmd :: rest } := by rw [← hp]
  rw [step_cmd_busy hp hc, step_nil rfl, hself]
  exact ⟨fun _ => withoutCommand_next_withPort _, fun _ => withoutCommand_refused_withPort _⟩

theorem withoutCommand_refused {s : State} {r : Refusal} (h : withoutCommand s = .refused r) :
    r = .noRule ∧ s.run = true ∧ 64 < s.i := by
  rcases withoutCommand_cases s with ⟨-, he⟩ | ⟨-, he⟩ | ⟨j, -, -, -, he⟩ | ⟨hrun, hi, -, -, -, he⟩ <;>
    rw [he] at h <;> cases h
  exact ⟨rfl, hrun, hi⟩

theorem acceptWord_not_refused {cmd : BitVec 12} {s : State} {r : Refusal} (hc : cmdReady s = true) :
    acceptWord cmd s ≠ .refused r := by
  obtain ⟨t, ht⟩ := acceptWord_ready hc
  rw [ht]
  nofun

/-- Settles O43: by the HOST's move; an accepted word and a reset move always answer a next state. -/
theorem stepsStopOnlyOnCodesNeverProduced : Obligations.StepsStopOnlyOnCodesNeverProduced := by
  intro s r h
  match hp : s.port with
  | [] => exact withoutCommand_refused (step_nil hp ▸ h)
  | .pause :: rest =>
    rw [step_pause hp] at h
    have hstop := withoutCommand_refused h
    exact hstop
  | .applyReset :: rest =>
    rw [step_applyReset hp] at h
    cases h
  | .releaseReset :: rest =>
    rw [step_releaseReset hp] at h
    cases h
  | .cmd cmd :: rest =>
    rcases Bool.eq_false_or_eq_true (cmdReady s) with hc | hc
    · rw [step_cmd_ready hp hc] at h
      exact absurd h (acceptWord_not_refused hc)
    · exact withoutCommand_refused (step_cmd_busy hp hc ▸ h)

/-! ## The writers of A to D and of `lenovf` (R21, R26) -/

theorem commandEffect_H {i : Instr} (h : i ≠ .init) (s : State) : (commandEffect i s).H = s.H := by
  cases i <;> simp [commandEffect] at h ⊢

theorem engineEffect_H {j : Instr} (h : j ≠ .feedfwd) (s : State) : (engineEffect j s).H = s.H := by
  cases j <;> simp [engineEffect] at h ⊢

/-- Settles O32: by what becomes of the registers. -/
theorem chainingStateHasTwoWriters : Obligations.ChainingStateHasTwoWriters := by
  intro s t h hrs hrt hne
  cases step_result h with
  | reset dp rst moves draws hr => exact absurd hrt (by simpa [hrs] using hr)
  | held => exact absurd rfl hne
  | faulted => exact absurd rfl hne
  | command cmd rest i hp hc hd ha =>
    by_cases hi : i = .init
    · subst hi
      obtain ⟨-, rfl⟩ : Instr.init = .init ∧ cmd = 0x100 := by simpa using decodeCmd_word hd
      exact .inl ⟨hc, by simpa [allowedPhase] using ha, rest, hp⟩
    · exact absurd (commandEffect_H hi { s with port := rest }).symm hne
  | engine j moves hc hs =>
    by_cases hj : j = .feedfwd
    · subst hj
      exact .inr ⟨hc, (decodeSeq_eq_ok_iff s _).2 hs, rfl⟩
    · exact absurd (engineEffect_H hj { s with port := moves }).symm hne

theorem commandEffect_lenovf {i : Instr} (hi : i ≠ .init) (hb : ∀ b, i ≠ .absorb b) (s : State) :
    (commandEffect i s).lenovf = s.lenovf := by
  cases i <;> simp [commandEffect] at hi hb ⊢

@[simp] theorem lenovfAfterAbsorb_of_set (bitlen : Word) : lenovfAfterAbsorb bitlen true = true := by
  simp [lenovfAfterAbsorb]

theorem lenovfAfterAbsorb_of_clear {bitlen : Word} (h : lenovfAfterAbsorb bitlen false = true) :
    bitlen = 0xfffffff8 := by
  by_contra hne
  rw [lenovfAfterAbsorb, if_neg hne] at h
  cases h

/-- Settles O34: of what a step can do to the registers, INIT and ABSORB alone write `lenovf`. -/
theorem lenovfIsStickyUntilInit : Obligations.LenovfIsStickyUntilInit := by
  intro s t h hrs hrt
  by_cases hkept : s.lenovf = t.lenovf
  · constructor <;> (intro hs ht; rw [hs, ht] at hkept; cases hkept)
  cases step_result h with
  | reset dp rst moves draws hr => exact absurd hrt (by simpa [hrs] using hr)
  | held => exact absurd rfl hkept
  | faulted => exact absurd rfl hkept
  | command cmd rest i hp hc hd ha =>
    rcases decodeCmd_word hd with ⟨rfl, rfl⟩ | ⟨b, rfl, rfl⟩ | hother
    · exact ⟨fun _ ht => Bool.noConfusion ht, fun _ _ => ⟨by simpa [allowedPhase] using ha, rest, hp⟩⟩
    · simp only [commandEffect, absorbByte_lenovf, absorbByte_bitlen]
      constructor
      · intro hs ht
        rw [hs] at ht
        have hlen := lenovfAfterAbsorb_of_clear ht
        exact ⟨hlen, by rw [hlen]; rfl, by simpa [allowedPhase] using ha, b, rest, hp⟩
      · intro hs ht
        rw [hs, lenovfAfterAbsorb_of_set] at ht
        cases ht
    · have hi : i ≠ .init ∧ ∀ b, i ≠ .absorb b := by
        rcases hother with ⟨rfl, -⟩ | ⟨k, rfl, -⟩ | ⟨j, rfl, -⟩ | ⟨rfl, -⟩ <;> simp
      exact absurd (commandEffect_lenovf hi.1 hi.2 { s with port := rest }).symm hkept
  | engine j moves hc hs => exact absurd (engineEffect_lenovf j { s with port := moves }).symm hkept

/-! ## States that differ only in hidden registers (R23, R37, U2, U8) -/

theorem sameButHidden_refl (s : State) : SameButHidden s s :=
  ⟨rfl, rfl, rfl, rfl, rfl, fun _ => ⟨rfl, rfl, rfl, rfl, rfl⟩, fun _ _ => ⟨rfl, rfl, rfl⟩, fun _ _ => rfl⟩

/-- a to d are hidden while `run` = 0. -/
theorem sameButHidden_working {s : State} (w : Quad) (hr : s.run = false) : SameButHidden s { s with w := w } :=
  ⟨rfl, rfl, rfl, rfl, rfl, fun _ => ⟨rfl, rfl, rfl, rfl, rfl⟩, fun _ _ => ⟨rfl, rfl, rfl⟩,
    fun _ hrun => by simp [hr] at hrun⟩

/-- ABSORB loads a to d from A to D or leaves them hidden. -/
theorem sameButHidden_absorbByte {s : State} (b : Byte) (w : Quad) (hr : s.run = false) :
    SameButHidden (absorbByte b s) (absorbByte b { s with w := w }) := by
  by_cases hlast : fillPointer s.bitlen = 63
  · have hsame : absorbByte b { s with w := w } = absorbByte b s := by
      simp only [absorbByte, if_pos hlast, loadw]
    rw [hsame]
    exact sameButHidden_refl _
  · have hsame : absorbByte b { s with w := w } = { absorbByte b s with w := w } := by
      simp only [absorbByte, if_neg hlast]
    rw [hsame]
    exact sameButHidden_working w (by rw [absorbByte_run, if_neg hlast, hr])

/-- Settles O45: after reset the phase is IDLE and `run` is 0, so the datapath is hidden. -/
theorem resetDatapathIsHidden : Obligations.ResetDatapathIsHidden := fun _ _ =>
  ⟨rfl, rfl, rfl, rfl, rfl, fun _ => ⟨rfl, rfl, rfl, rfl, rfl⟩, fun _ hp => by simp [State.resetWith] at hp,
    fun _ hrun => by simp [State.resetWith] at hrun⟩

section SameButHidden
variable {s t : State} (h : SameButHidden s t)
include h

theorem SameButHidden.withPort (moves : List HostMove) :
    SameButHidden { s with port := moves } { t with port := moves } :=
  ⟨h.rst, h.rsp, rfl, h.draws, h.phase, h.control, h.message, h.working⟩

theorem SameButHidden.withRsp (rsp : Option Byte) : SameButHidden { s with rsp := rsp } { t with rsp := rsp } :=
  ⟨h.rst, rfl, h.port, h.draws, h.phase, h.control, h.message, h.working⟩

/-- In phase FAULT the datapath is hidden. -/
theorem SameButHidden.raiseFault (code : FaultCode) (responds : Bool) (hr : s.run = false) :
    SameButHidden (raiseFault code responds s) (raiseFault code responds t) := by
  rw [raiseFault_eq, raiseFault_eq]
  refine ⟨h.rst, rfl, h.port, h.draws, rfl, fun hrst => ?_, fun _ hp => by simp at hp,
    fun _ hrun => by simp [hr] at hrun⟩
  obtain ⟨hfst, hrun, hi, -, hovf⟩ := h.control hrst
  exact ⟨hfst, hrun, hi, rfl, hovf⟩

/-- The draws agree, so both take the same reset values in the same step. -/
theorem SameButHidden.underReset : SameButHidden (underReset s) (underReset t) := by
  unfold Machine.underReset
  rw [← h.draws, ← h.port]
  split
  · exact sameButHidden_refl _
  · exact ⟨rfl, rfl, rfl, rfl, h.phase, fun hr => by simp at hr, fun hr => by simp at hr,
      fun hr => by simp at hr⟩

theorem SameButHidden.releaseReset : SameButHidden (releaseReset s) (releaseReset t) := by
  unfold Machine.releaseReset
  rw [← h.draws, ← h.port, ← h.rst]
  split
  · exact sameButHidden_refl _
  · exact h.withRsp none

theorem SameButHidden.cmdReady_eq : cmdReady s = cmdReady t := by
  unfold cmdReady
  rw [← h.phase, ← h.rst]
  cases hr : s.rst
  · obtain ⟨-, hrun, -, -, -⟩ := h.control hr
    rw [hrun]
  · simp

theorem SameButHidden.outputs_eq : outputs s = outputs t := by
  simp only [outputs, doneOut, faultOut, h.cmdReady_eq, h.phase, h.rsp]

theorem SameButHidden.selectedStep_eq (hr : s.rst = false) : selectedStep s = selectedStep t := by
  obtain ⟨hfst, hrun, hi, -, -⟩ := h.control hr
  simp only [selectedStep, h.phase, hfst, hrun, hi]

theorem SameButHidden.statusByte_eq (hr : s.rst = false) : statusByte s = statusByte t := by
  obtain ⟨-, -, -, hcode, hovf⟩ := h.control hr
  simp only [statusByte, h.phase, hcode, hovf]

/-- While a message is in progress or its digest stands, only a to d can be hidden. -/
theorem SameButHidden.eq_withWorking (hr : s.rst = false)
    (hp : s.phase = .absorb ∨ s.phase = .final ∨ s.phase = .done) : t = { s with w := t.w } := by
  obtain ⟨hfst, hrun, hi, hcode, hovf⟩ := h.control hr
  obtain ⟨hH, hM, hlen⟩ := h.message hr hp
  rw [hH, hM, hlen, hfst, hrun, hi, hcode, hovf, h.rst, h.rsp, h.port, h.draws, h.phase]

/-- A compression in progress hides nothing. -/
theorem SameButHidden.eq_of_run (hinv : Inv s) (hr : s.rst = false) (hrun : s.run = true) : t = s := by
  obtain ⟨-, hphase, -, -⟩ := hinv
  have hp : s.phase = .absorb ∨ s.phase = .final ∨ s.phase = .done := (hphase hrun).imp_right .inl
  rw [h.eq_withWorking hr hp, ← h.working hr hrun]

/-- A command reads no hidden register. -/
theorem SameButHidden.commandEffect {i : Instr} (hc : cmdReady s = true) (ha : allowedPhase i s.phase = true) :
    SameButHidden (commandEffect i s) (commandEffect i t) := by
  obtain ⟨hrun, -, hr⟩ := (cmdReady_iff s).1 hc
  cases i with
  | init =>
    refine ⟨h.rst, rfl, h.port, h.draws, rfl, fun _ => ?_, fun _ _ => ⟨rfl, rfl, rfl⟩, h.working⟩
    obtain ⟨-, hrun, hi, hcode, -⟩ := h.control hr
    exact ⟨rfl, hrun, hi, hcode, rfl⟩
  | absorb b =>
    have hp : s.phase = .absorb := by simpa [allowedPhase] using ha
    rw [h.eq_withWorking hr (.inl hp)]
    exact sameButHidden_absorbByte b t.w hrun
  | final =>
    have hp : s.phase = .absorb := by simpa [allowedPhase] using ha
    rw [h.eq_withWorking hr (.inl hp)]
    exact sameButHidden_working _ hrun
  | rdhex k =>
    have hp : s.phase = .done := by simpa [allowedPhase] using ha
    obtain ⟨hH, -, -⟩ := h.message hr (.inr (.inr hp))
    simp only [Machine.commandEffect, hH]
    exact h.withRsp _
  | rddig j =>
    have hp : s.phase = .done := by simpa [allowedPhase] using ha
    obtain ⟨hH, -, -⟩ := h.message hr (.inr (.inr hp))
    simp only [Machine.commandEffect, hH]
    exact h.withRsp _
  | rdstat =>
    simp only [Machine.commandEffect, h.statusByte_eq hr]
    exact h.withRsp _
  | _ => cases ha

/-- An engine step reads no hidden register: with `run` = 1 there is none, and PADSTEP0 and PADSTEP1 write a to d
before a round reads them. -/
theorem SameButHidden.engineEffect {j : Instr} (hinv : Inv s) (hr : s.rst = false) (hs : selectedStep s = some j) :
    SameButHidden (engineEffect j s) (engineEffect j t) := by
  rcases selectedStep_cases hs with ⟨hrun, -, -⟩ | ⟨hrun, -, -⟩ | ⟨-, hp, -, rfl⟩ | ⟨-, hp, -, rfl⟩ |
    ⟨hrun, hp, -, rfl⟩
  · rw [h.eq_of_run hinv hr hrun]
    exact sameButHidden_refl _
  · rw [h.eq_of_run hinv hr hrun]
    exact sameButHidden_refl _
  · rw [h.eq_withWorking hr (.inr (.inl hp))]
    exact sameButHidden_refl (padFirst s)
  · rw [h.eq_withWorking hr (.inr (.inl hp))]
    exact sameButHidden_refl (dispatchLengthBlock s)
  · rw [h.eq_withWorking hr (.inr (.inl hp))]
    exact sameButHidden_working _ hrun

end SameButHidden

/-! ## The step of two such states -/

/-- Both outcomes are next states, which differ only in hidden registers. -/
def BothNext (x y : Host.Outcome State Fault Refusal) : Prop :=
  ∃ s t, x = .next s ∧ y = .next t ∧ SameButHidden s t

theorem bothNext_next {s t : State} (h : SameButHidden s t) : BothNext (.next s) (.next t) := ⟨s, t, rfl, rfl, h⟩

theorem bothNext_acceptCommand {responds legal : Bool} {allowed : Phase → Bool} {effect : State → State}
    {s t : State} (h : SameButHidden s t) (hc : cmdReady s = true)
    (heff : legal = true → allowed s.phase = true → SameButHidden (effect s) (effect t)) :
    BothNext (acceptCommand responds legal allowed effect s) (acceptCommand responds legal allowed effect t) := by
  have hct : cmdReady t = true := h.cmdReady_eq ▸ hc
  obtain ⟨hrun, -, -⟩ := (cmdReady_iff s).1 hc
  by_cases hp : s.phase = .fault
  · rw [acceptCommand_inFault hc hp, acceptCommand_inFault hct (h.phase ▸ hp), respondZeroIf_eq, respondZeroIf_eq]
    exact bothNext_next (h.withRsp _)
  cases legal with
  | false =>
    rw [acceptCommand_illegal hc hp, acceptCommand_illegal hct (h.phase ▸ hp)]
    exact bothNext_next (h.raiseFault _ _ hrun)
  | true =>
    cases ha : allowed s.phase with
    | false =>
      rw [acceptCommand_outOfPhase hc hp ha, acceptCommand_outOfPhase hct (h.phase ▸ hp) (h.phase ▸ ha)]
      exact bothNext_next (h.raiseFault _ _ hrun)
    | true =>
      rw [acceptCommand_executes hc hp ha, acceptCommand_executes hct (h.phase ▸ hp) (h.phase ▸ ha)]
      exact bothNext_next (heff rfl ha)

theorem bothNext_acceptWord {s t : State} (cmd : BitVec 12) (h : SameButHidden s t) (hc : cmdReady s = true) :
    BothNext (acceptWord cmd s) (acceptWord cmd t) := by
  unfold acceptWord
  cases hd : decodeCmd cmd with
  | error e => exact bothNext_acceptCommand h hc fun hlegal => Bool.noConfusion hlegal
  | ok i =>
    obtain ⟨hi, -, -⟩ := decodeCmd_ok hd
    by_cases hs : i = .rdstat
    · subst hs
      obtain ⟨-, -, hr⟩ := (cmdReady_iff s).1 hc
      simp only [exec_rdstat hc, exec_rdstat (h.cmdReady_eq ▸ hc), h.statusByte_eq hr]
      exact bothNext_next (h.withRsp _)
    · simp only [exec_command hi hs]
      exact bothNext_acceptCommand h hc fun _ ha => h.commandEffect hc ha

theorem bothNext_withoutCommand {s t : State} (h : SameButHidden s t) (hinv : Inv s) :
    BothNext (withoutCommand s) (withoutCommand t) := by
  rcases withoutCommand_cases s with ⟨hr, he⟩ | ⟨hc, he⟩ | ⟨j, hr, hc, hs, he⟩ | ⟨-, hi, -, -, -, -⟩
  · rw [he, withoutCommand_reset (h.rst ▸ hr)]
    exact bothNext_next h.underReset
  · rw [he, withoutCommand_held (h.cmdReady_eq ▸ hc)]
    exact bothNext_next (h.withRsp none)
  · rw [he, withoutCommand_selected (h.rst ▸ hr) (h.cmdReady_eq ▸ hc) (h.selectedStep_eq hr ▸ hs)]
    exact bothNext_next ((h.engineEffect hinv hr hs).withRsp none)
  · obtain ⟨hle, -, -, -⟩ := hinv
    exact absurd hi (BitVec.not_lt.2 hle)

theorem bothNext_step {s t : State} (h : SameButHidden s t) (hinv : Inv s) : BothNext (step s) (step t) := by
  match hp : s.port with
  | [] =>
    rw [step_nil hp, step_nil (h.port ▸ hp)]
    exact bothNext_withoutCommand h hinv
  | .pause :: rest =>
    rw [step_pause hp, step_pause (h.port ▸ hp)]
    exact bothNext_withoutCommand (h.withPort rest) hinv
  | .applyReset :: rest =>
    rw [step_applyReset hp, step_applyReset (h.port ▸ hp)]
    exact bothNext_next (h.withPort rest).underReset
  | .releaseReset :: rest =>
    rw [step_releaseReset hp, step_releaseReset (h.port ▸ hp)]
    exact bothNext_next (h.withPort rest).releaseReset
  | .cmd cmd :: rest =>
    cases hc : cmdReady s
    · rw [step_cmd_busy hp hc, step_cmd_busy (h.port ▸ hp) (h.cmdReady_eq ▸ hc)]
      exact bothNext_withoutCommand h hinv
    · rw [step_cmd_ready hp hc, step_cmd_ready (h.port ▸ hp) (h.cmdReady_eq ▸ hc)]
      exact bothNext_acceptWord cmd (h.withPort rest) hc

/-- Settles O44: the steps agree, and so do the outputs, which no hidden register enters. -/
theorem hiddenRegistersAreNeverObserved : Obligations.HiddenRegistersAreNeverObserved := by
  intro s t hinv h
  obtain ⟨s', t', hs, ht, h'⟩ := bothNext_step h hinv
  exact ⟨s', t', hs, ht, h', h'.outputs_eq⟩

end Sys2Proof.Machine

/-! PROOFS. The statements of 20_memory.md: the byte and word views of BUF (R52), and who writes it and what
ABSORB stores in it (R50, R53). -/

namespace Sys2Proof.Machine

/-! ## The two views of BUF (R52) -/

/-- Byte `4 * j + n` of BUF is byte `n` of word `j`. -/
theorem bufByte_ofNat (M : Block) (j : Fin 16) {n : Nat} (hn : n < 4) :
    bufByte M (BitVec.ofNat 6 (4 * j.val + n)) = byteOfWord (bufWord M j) n := by
  have hq : (BitVec.ofNat 6 (4 * j.val + n)).toNat = 4 * j.val + n := by
    rw [BitVec.toNat_ofNat]
    omega
  have hdiv : (4 * j.val + n) / 4 = j.val := by omega
  have hmod : (4 * j.val + n) % 4 = n % 4 := by omega
  simp [bufByte, bufWord, byteOfWord, hq, hdiv, hmod]

/-- A word is its four bytes, byte 3 the most significant. -/
theorem word_eq_append_bytes (x : Word) :
    x = byteOfWord x 3 ++ byteOfWord x 2 ++ byteOfWord x 1 ++ byteOfWord x 0 := by
  have h2 : byteOfWord x 3 ++ byteOfWord x 2 = x.extractLsb' 16 16 :=
    BitVec.extractLsb'_append_extractLsb'_eq_extractLsb' (by rfl)
  have h1 : x.extractLsb' 16 16 ++ byteOfWord x 1 = x.extractLsb' 8 24 :=
    BitVec.extractLsb'_append_extractLsb'_eq_extractLsb' (by rfl)
  have h0 : x.extractLsb' 8 24 ++ byteOfWord x 0 = x.extractLsb' 0 32 :=
    BitVec.extractLsb'_append_extractLsb'_eq_extractLsb' (by rfl)
  rw [h2, h1, h0, BitVec.extractLsb'_eq_self]

/-- Settles O54: each byte of BUF is a byte of its word, and a word is its bytes. -/
theorem bufferViewsAreLittleEndian : Obligations.BufferViewsAreLittleEndian := by
  intro M j
  rw [bufByte_ofNat M j (by decide : 3 < 4), bufByte_ofNat M j (by decide : 2 < 4),
    bufByte_ofNat M j (by decide : 1 < 4), ← Nat.add_zero (4 * j.val), bufByte_ofNat M j (by decide : 0 < 4)]
  exact word_eq_append_bytes (bufWord M j)

/-! ## What ABSORB stores (R53, R112) -/

/-- A legal command in a phase it is allowed in executes (R88). -/
theorem exec_command_executes {i : Instr} {s : State} (hi : isEngineStep i = false) (hw : i.wellFormed = true)
    (hc : cmdReady s = true) (ha : allowedPhase i s.phase = true) :
    exec i s = .next (commandEffect i s) := by
  by_cases hs : i = .rdstat
  · subst hs
    exact exec_rdstat hc
  · have hf : s.phase ≠ .fault := by
      intro hp
      cases i <;> simp [allowedPhase, hp] at ha hs
    rw [exec_command hi hs, hw]
    exact acceptCommand_executes hc hf ha

/-- Settles O16: the byte at the fill pointer is zero before the OR. -/
theorem absorbStoresTheByteExactly : Obligations.AbsorbStoresTheByteExactly := by
  intro s b hm hc hp
  obtain ⟨hrun, -, -⟩ := (cmdReady_iff s).1 hc
  obtain ⟨-, hzero, -⟩ := (messageInv_absorb_iff hp).1 hm
  have hfree : bufByte s.M (fillPointer s.bitlen) = 0 := hzero hrun (fillPointer s.bitlen).toFin (Nat.le_refl _)
  refine ⟨absorbByte b s, exec_command_executes rfl rfl hc (by simp [allowedPhase, hp]), ?_⟩
  calc bufByte (absorbByte b s).M (fillPointer s.bitlen)
    _ = bufByte s.M (fillPointer s.bitlen) ||| b := by rw [absorbByte_M, bufByte_bufOrByte, if_pos rfl]
    _ = b := by rw [hfree]; exact BitVec.zero_or

/-! ## The writers of BUF (R24, R50, R53) -/

/-- Settles O33: by what becomes of the registers. -/
theorem bufferIsWrittenByItsWritersOnly : Obligations.BufferIsWrittenByItsWritersOnly := by
  intro s t h hrs hrt hne
  cases step_result h with
  | reset dp rst moves draws hr => exact absurd hrt (by simpa [hrs] using hr)
  | held => exact absurd rfl hne
  | faulted => exact absurd rfl hne
  | command cmd rest i hp hc hd ha =>
    refine .inl ⟨hc, cmd, rest, hp, ?_⟩
    rcases decodeCmd_word hd with ⟨-, hinit⟩ | ⟨b, -, habsorb⟩ | ⟨-, hfinal⟩ | ⟨k, rfl, -⟩ | ⟨j, rfl, -⟩ | ⟨rfl, -⟩
    · exact .inl hinit
    · exact .inr (.inl (habsorb ▸ opOf_cmdWord 0x2 b))
    · exact .inr (.inr hfinal)
    · exact absurd rfl hne
    · exact absurd rfl hne
    · exact absurd rfl hne
  | engine j moves hc hs =>
    refine .inr ⟨hc, ?_⟩
    simp only [decodeSeq_eq_ok_iff]
    rcases selectedStep_cases (s := { s with port := moves }) hs with ⟨-, -, hround⟩ | ⟨-, -, rfl⟩ |
      ⟨-, -, -, rfl⟩ | ⟨-, -, -, rfl⟩ | ⟨-, -, -, rfl⟩
    · exact absurd (congrArg State.M hround).symm hne
    · exact .inr (.inr hs)
    · exact .inl hs
    · exact .inr (.inl hs)
    · exact absurd rfl hne

end Sys2Proof.Machine

/-! PROOFS. The statements of 30_encoding.md: the command words and the rows of the sequencer decode (R81 to R86),
what an accepted word comes to (R83, R88), and the instruction of a table word. -/

namespace Sys2Proof.Machine

/-! ## The command words (R81, R82, R86) -/

theorem decodeCmd_rdhex {k : Byte} (h : k ≤ 0x1f#8) : decodeCmd (cmdWord 0x4 k) = .ok (.rdhex k) := by
  simp [decodeCmd, h]

theorem decodeCmd_rddig {j : Byte} (h : j ≤ 0x0f#8) : decodeCmd (cmdWord 0x5 j) = .ok (.rddig j) := by
  simp [decodeCmd, h]

/-- Settles O1: a command by its two fields, an engine step by its own row. -/
theorem decodeOfEncodeGivesInstructionBack : Obligations.DecodeOfEncodeGivesInstructionBack := by
  intro i hw
  cases i with
  | absorb b => exact decodeCmd_absorb b
  | rdhex k => exact decodeCmd_rdhex (by simpa [Instr.wellFormed] using hw)
  | rddig j => exact decodeCmd_rddig (by simpa [Instr.wellFormed] using hw)
  | init | final | rdstat | roundF | roundG | roundH | roundI | feedfwd | padstep0 | padstep1 | padstep2 => rfl

/-- Settles O2: by the words of the six commands. -/
theorem commandWordsHaveOneMeaning : Obligations.CommandWordsHaveOneMeaning := by
  intro cmd i hd
  obtain ⟨-, hw, -⟩ := decodeCmd_ok hd
  refine ⟨?_, hw⟩
  rcases decodeCmd_word hd with ⟨rfl, rfl⟩ | ⟨b, rfl, rfl⟩ | ⟨rfl, rfl⟩ | ⟨k, rfl, rfl, -⟩ | ⟨j, rfl, rfl, -⟩ |
    ⟨rfl, rfl⟩ <;> rfl

/-- R86's six cases, in the fields of the word. -/
theorem legalCmd_iff_fields (cmd : BitVec 12) :
    legalCmd cmd = true ↔
      (opOf cmd = 0x1 ∧ immOf cmd = 0) ∨ opOf cmd = 0x2 ∨ (opOf cmd = 0x3 ∧ immOf cmd = 0) ∨
      (opOf cmd = 0x4 ∧ immOf cmd ≤ 0x1f#8) ∨ (opOf cmd = 0x5 ∧ immOf cmd ≤ 0x0f#8) ∨
      (opOf cmd = 0x6 ∧ immOf cmd = 0) := by
  rw [legalCmd_iff]
  constructor
  · rintro ⟨i, hd⟩
    rcases decodeCmd_word hd with ⟨-, rfl⟩ | ⟨b, -, rfl⟩ | ⟨-, rfl⟩ | ⟨k, -, rfl, hk⟩ | ⟨j, -, rfl, hj⟩ | ⟨-, rfl⟩
    · exact .inl ⟨rfl, rfl⟩
    · exact .inr (.inl (opOf_cmdWord 0x2 b))
    · exact .inr (.inr (.inl ⟨rfl, rfl⟩))
    · exact .inr (.inr (.inr (.inl (by simpa using hk))))
    · exact .inr (.inr (.inr (.inr (.inl (by simpa using hj)))))
    · exact .inr (.inr (.inr (.inr (.inr ⟨rfl, rfl⟩))))
  · rw [← cmdWord_opOf_immOf cmd, opOf_cmdWord, immOf_cmdWord]
    rintro (⟨hop, himm⟩ | hop | ⟨hop, himm⟩ | ⟨hop, himm⟩ | ⟨hop, himm⟩ | ⟨hop, himm⟩) <;> rw [hop]
    · exact ⟨.init, by rw [himm]; rfl⟩
    · exact ⟨_, decodeCmd_absorb _⟩
    · exact ⟨.final, by rw [himm]; rfl⟩
    · exact ⟨_, decodeCmd_rdhex himm⟩
    · exact ⟨_, decodeCmd_rddig himm⟩
    · exact ⟨.rdstat, by rw [himm]; rfl⟩

/-- The legal words as numbers, command by command (R86). -/
def legalWords : List Nat :=
  [0x100] ++ List.range' 0x200 256 ++ [0x300] ++ List.range' 0x400 32 ++ List.range' 0x500 16 ++ [0x600]

/-- Being listed is lying in the range of one of the six commands. -/
theorem mem_legalWords_iff (n : Nat) :
    n ∈ legalWords ↔
      n = 0x100 ∨ (0x200 ≤ n ∧ n < 0x300) ∨ n = 0x300 ∨ (0x400 ≤ n ∧ n < 0x420) ∨ (0x500 ≤ n ∧ n < 0x510) ∨
      n = 0x600 := by
  simp [legalWords]

/-- No two of the six ranges meet. -/
theorem nodup_legalWords : legalWords.Nodup := by
  simp only [legalWords, List.nodup_append, List.nodup_singleton, List.mem_append,
    List.mem_range'_1, List.mem_singleton]
  grind

/-- `op` is the number over 256 and `imm` the rest (R80). -/
theorem legalCmd_ofNat_iff {n : Nat} (hn : n < 4096) : legalCmd (BitVec.ofNat 12 n) = true ↔ n ∈ legalWords := by
  have hop : (opOf (BitVec.ofNat 12 n)).toNat = n / 256 := by
    rw [opOf, BitVec.extractLsb'_toNat, BitVec.toNat_ofNat, Nat.shiftRight_eq_div_pow]
    omega
  have himm : (immOf (BitVec.ofNat 12 n)).toNat = n % 256 := by
    simp [immOf, BitVec.extractLsb'_toNat]
  rw [legalCmd_iff_fields, mem_legalWords_iff]
  simp only [← BitVec.toNat_inj, BitVec.le_def, hop, himm, BitVec.reduceToNat]
  omega

/-- The words that are legal are those listed (R86). -/
theorem filter_legalCmd_perm :
    ((List.range 4096).filter fun n => legalCmd (BitVec.ofNat 12 n)).Perm legalWords := by
  rw [List.perm_ext_iff_of_nodup (List.nodup_range.filter _) nodup_legalWords]
  intro n
  rw [List.mem_filter, List.mem_range]
  constructor
  · rintro ⟨hn, hl⟩
    exact (legalCmd_ofNat_iff hn).1 hl
  · intro hm
    have hn : n < 4096 := by
      rw [mem_legalWords_iff] at hm
      omega
    exact ⟨hn, (legalCmd_ofNat_iff hn).2 hm⟩

theorem length_legalWords : legalWords.length = 307 := by
  simp [legalWords]

/-! ## The rows of the sequencer decode (R85) -/

/-- Matching a word under a mask of `n` bits from bit `p` on is comparing that field of it. -/
theorem and_mask_eq_iff_extractLsb' {w : Nat} (x : BitVec w) (p n : Nat) (v : BitVec n) (h : p + n ≤ w) :
    x &&& (BitVec.allOnes n).setWidth w <<< p = v.setWidth w <<< p ↔ x.extractLsb' p n = v := by
  constructor
  · intro he
    ext k hk
    have hb := congrArg (fun y : BitVec w => y.getLsbD (p + k)) he
    simpa [hk, show p + k < w by omega, show k < w by omega] using hb
  · rintro rfl
    ext k hk
    by_cases hp : k < p
    · simp [hp]
    · by_cases hn : k - p < n
      · simp [hp, hn, show p + (k - p) = k by omega, BitVec.getLsbD_eq_getElem hk]
      · simp [hp, hn]

/-- A field is two fields side by side. -/
theorem extractLsb'_eq_append_iff {w : Nat} (x : BitVec w) (p m n : Nat) (hi : BitVec m) (lo : BitVec n) :
    x.extractLsb' p (m + n) = hi ++ lo ↔ x.extractLsb' (p + n) m = hi ∧ x.extractLsb' p n = lo := by
  rw [← BitVec.extractLsb'_append_extractLsb'_eq_extractLsb' (x := x) (rfl : p + n = p + n)]
  constructor
  · intro he
    constructor
    · simpa [BitVec.extractLsb'_append_eq_left] using congrArg (BitVec.extractLsb' n m) he
    · simpa [BitVec.extractLsb'_append_eq_right] using congrArg (BitVec.extractLsb' 0 n) he
  · rintro ⟨rfl, rfl⟩
    rfl

theorem extractLsb'_one_eq_ofBool_iff {w : Nat} (x : BitVec w) (p : Nat) (b : Bool) :
    x.extractLsb' p 1 = BitVec.ofBool b ↔ x.getLsbD p = b := by
  rw [BitVec.getLsbD_eq_extractLsb']
  generalize x.extractLsb' p 1 = y
  revert y b
  decide

/-- The mask of the four ROUND rows: `run` = 1 and a group `g` of rounds. -/
theorem roundRow_iff (seq : BitVec 13) (g : BitVec 3) :
    seq &&& 0x00f0 = (1#1 ++ g).setWidth 13 <<< 4 ↔ seq.getLsbD 7 = true ∧ seq.extractLsb' 4 3 = g := by
  rw [← extractLsb'_one_eq_ofBool_iff, ← extractLsb'_eq_append_iff seq 4 1 3]
  exact and_mask_eq_iff_extractLsb' seq 4 4 (1#1 ++ g) (by decide)

/-- The mask of the FEEDFWD row: `run` = 1 and a count `i`. -/
theorem feedfwdRow_iff (seq : BitVec 13) (i : BitVec 7) :
    seq &&& 0x00ff = (1#1 ++ i).setWidth 13 <<< 0 ↔ seq.getLsbD 7 = true ∧ seq.extractLsb' 0 7 = i := by
  rw [← extractLsb'_one_eq_ofBool_iff, ← extractLsb'_eq_append_iff seq 0 1 7]
  exact and_mask_eq_iff_extractLsb' seq 0 8 (1#1 ++ i) (by decide)

/-- The mask of the three PADSTEP rows: `phase`, `fst` and `run` = 0. -/
theorem padRow_iff (seq : BitVec 13) (phase : BitVec 3) (fst : BitVec 2) :
    seq &&& 0x1f80 = (phase ++ (fst ++ 0#1)).setWidth 13 <<< 7 ↔
      seq.extractLsb' 10 3 = phase ∧ seq.extractLsb' 8 2 = fst ∧ seq.getLsbD 7 = false := by
  rw [← extractLsb'_one_eq_ofBool_iff, ← extractLsb'_eq_append_iff seq 7 2 1, ← extractLsb'_eq_append_iff seq 7 3 3]
  exact and_mask_eq_iff_extractLsb' seq 7 6 (phase ++ (fst ++ 0#1)) (by decide)

/-- The row of R85 for each engine step, in the fields of the word; no row stands for a command. -/
def seqRow (seq : BitVec 13) : Instr → Prop
  | .roundF => seq.getLsbD 7 = true ∧ seq.extractLsb' 4 3 = 0b000
  | .roundG => seq.getLsbD 7 = true ∧ seq.extractLsb' 4 3 = 0b001
  | .roundH => seq.getLsbD 7 = true ∧ seq.extractLsb' 4 3 = 0b010
  | .roundI => seq.getLsbD 7 = true ∧ seq.extractLsb' 4 3 = 0b011
  | .feedfwd => seq.getLsbD 7 = true ∧ seq.extractLsb' 0 7 = 0b1000000
  | .padstep0 => seq.extractLsb' 10 3 = 0b010 ∧ seq.extractLsb' 8 2 = 0b00 ∧ seq.getLsbD 7 = false
  | .padstep1 => seq.extractLsb' 10 3 = 0b010 ∧ seq.extractLsb' 8 2 = 0b01 ∧ seq.getLsbD 7 = false
  | .padstep2 => seq.extractLsb' 10 3 = 0b010 ∧ seq.extractLsb' 8 2 = 0b10 ∧ seq.getLsbD 7 = false
  | .init => False
  | .absorb _ => False
  | .final => False
  | .rdhex _ => False
  | .rddig _ => False
  | .rdstat => False

/-- The decoder with every mask read as the fields it looks at. -/
theorem decodeSeq_eq_fields (seq : BitVec 13) :
    decodeSeq seq =
      if seq.getLsbD 7 = true ∧ seq.extractLsb' 4 3 = 0b000 then .ok .roundF
      else if seq.getLsbD 7 = true ∧ seq.extractLsb' 4 3 = 0b001 then .ok .roundG
      else if seq.getLsbD 7 = true ∧ seq.extractLsb' 4 3 = 0b010 then .ok .roundH
      else if seq.getLsbD 7 = true ∧ seq.extractLsb' 4 3 = 0b011 then .ok .roundI
      else if seq.getLsbD 7 = true ∧ seq.extractLsb' 0 7 = 0b1000000 then .ok .feedfwd
      else if seq.extractLsb' 10 3 = 0b010 ∧ seq.extractLsb' 8 2 = 0b00 ∧ seq.getLsbD 7 = false then .ok .padstep0
      else if seq.extractLsb' 10 3 = 0b010 ∧ seq.extractLsb' 8 2 = 0b01 ∧ seq.getLsbD 7 = false then .ok .padstep1
      else if seq.extractLsb' 10 3 = 0b010 ∧ seq.extractLsb' 8 2 = 0b10 ∧ seq.getLsbD 7 = false then .ok .padstep2
      else .error (.noSequencerRow seq) := by
  simp only [← roundRow_iff, ← feedfwdRow_iff, ← padRow_iff]
  rfl

/-- The rows exclude each other, by `run`, the round group, the count or `fst`. -/
theorem decodeSeq_ok_iff_seqRow (seq : BitVec 13) (i : Instr) : decodeSeq seq = .ok i ↔ seqRow seq i := by
  have hlow : seq.extractLsb' 0 7 = 0b1000000#7 → seq.extractLsb' 4 3 = 0b100#3 := fun h => by
    rw [← BitVec.extractLsb'_extractLsb'_of_le (by decide : 4 + 3 ≤ 7), h]
    rfl
  rw [decodeSeq_eq_fields]
  constructor
  · intro h
    split_ifs at h with hrow hrow hrow hrow hrow hrow hrow hrow <;> cases h
    all_goals exact hrow
  · cases i with
    | roundF | roundG | roundH | roundI =>
      rintro ⟨hrun, hgroup⟩
      simp [hrun, hgroup]
    | feedfwd =>
      rintro ⟨hrun, hi⟩
      simp [hrun, hi, hlow hi]
    | padstep0 | padstep1 | padstep2 =>
      rintro ⟨hphase, hfst, hrun⟩
      simp [hphase, hfst, show seq[7] = false from hrun]
    | init | absorb | final | rdhex | rddig | rdstat => exact False.elim

/-- Settles O4: the rows, read off for each engine step. -/
theorem sequencerRowsBitByBit : Obligations.SequencerRowsBitByBit := fun seq =>
  have row := decodeSeq_ok_iff_seqRow seq
  ⟨row .roundF, row .roundG, row .roundH, row .roundI, row .feedfwd, row .padstep0, row .padstep1, row .padstep2⟩

/-- Settles O5: each word evaluated. -/
theorem wordsOfTheTableDecode : Obligations.WordsOfTheTableDecode := by
  unfold Obligations.WordsOfTheTableDecode
  decide

/-! ## What an accepted word comes to (R83, R88) -/

/-- RDSTAT has one word (R81). -/
theorem decodeCmd_eq_rdstat_iff {cmd : BitVec 12} : decodeCmd cmd = .ok .rdstat ↔ cmd = 0x600 := by
  constructor
  · intro hd
    obtain ⟨henc, -⟩ := commandWordsHaveOneMeaning cmd _ hd
    cases henc
    rfl
  · rintro rfl
    rfl

/-- The words that respond, as R83 lists their `op`. -/
theorem respondsOp_iff_mem (op : BitVec 4) : respondsOp op = true ↔ op ∈ [0x4#4, 0x5#4, 0x6#4] := by
  simp [respondsOp_iff]

/-- Of the legal words only RDSTAT has `op` 0x6 (R81). -/
theorem opOf_ne_six {cmd : BitVec 12} (hl : legalCmd cmd = true) (hne : cmd ≠ 0x600) : opOf cmd ≠ 0x6#4 := by
  intro hop
  have himm : immOf cmd = 0 := by simpa [hop] using (legalCmd_iff_fields cmd).1 hl
  exact hne (by rw [← cmdWord_opOf_immOf cmd, hop, himm]; rfl)

section AcceptWord
variable {cmd : BitVec 12} {i : Instr} {s : State}

/-- A reserved word goes through the checks of R88 with no meaning of its own (R86). -/
theorem acceptWord_of_reserved (hl : legalCmd cmd = false) : acceptWord cmd s = acceptReserved cmd s := by
  unfold acceptWord
  cases hd : decodeCmd cmd with
  | error e => rfl
  | ok i => simp [(legalCmd_iff cmd).2 ⟨i, hd⟩] at hl

/-- A legal word other than RDSTAT goes through the checks of R88 with its command's phases and effect. -/
theorem acceptWord_of_command (hd : decodeCmd cmd = .ok i) (hne : cmd ≠ 0x600) :
    acceptWord cmd s =
      acceptCommand (respondsOp (opOf cmd)) true (allowedPhase i) (commandEffect i) s := by
  obtain ⟨hi, hw, hr⟩ := decodeCmd_ok hd
  have hs : i ≠ .rdstat := fun h => hne (decodeCmd_eq_rdstat_iff.1 (h ▸ hd))
  simp only [acceptWord, hd]
  rw [exec_command hi hs, hw, hr]

theorem acceptWord_rdstat (hc : cmdReady s = true) :
    acceptWord 0x600 s = .next { s with rsp := some (statusByte s) } :=
  exec_rdstat hc

theorem acceptWord_inFault (hc : cmdReady s = true) (hp : s.phase = .fault) (hne : cmd ≠ 0x600) :
    acceptWord cmd s =
      .next { s with rsp := if opOf cmd ∈ [0x4#4, 0x5#4, 0x6#4] then some 0x00 else none } := by
  simp only [← respondsOp_iff_mem, ← respondZeroIf_eq]
  rcases Bool.eq_false_or_eq_true (legalCmd cmd) with hl | hl
  · obtain ⟨i, hd⟩ := (legalCmd_iff cmd).1 hl
    rw [acceptWord_of_command hd hne, acceptCommand_inFault hc hp]
  · rw [acceptWord_of_reserved hl, acceptReserved, acceptCommand_inFault hc hp]

theorem acceptWord_illegal (hc : cmdReady s = true) (hp : s.phase ≠ .fault) (hl : legalCmd cmd = false) :
    acceptWord cmd s =
      .next { s with
        fcode := .illegalCmd, phase := .fault,
        rsp := if opOf cmd ∈ [0x4#4, 0x5#4, 0x6#4] then some 0x00 else none } := by
  simp only [← respondsOp_iff_mem, ← raiseFault_eq]
  rw [acceptWord_of_reserved hl, acceptReserved, acceptCommand_illegal hc hp]

theorem acceptWord_outOfPhase (hc : cmdReady s = true) (hp : s.phase ≠ .fault) (hd : decodeCmd cmd = .ok i)
    (hne : cmd ≠ 0x600) (ha : allowedPhase i s.phase = false) :
    acceptWord cmd s =
      .next { s with
        fcode := .seqErr, phase := .fault,
        rsp := if opOf cmd ∈ [0x4#4, 0x5#4] then some 0x00 else none } := by
  have hop : opOf cmd ≠ 0x6#4 := opOf_ne_six ((legalCmd_iff cmd).2 ⟨i, hd⟩) hne
  have hmem : opOf cmd ∈ [0x4#4, 0x5#4] ↔ respondsOp (opOf cmd) = true := by simp [respondsOp_iff_mem, hop]
  simp only [hmem, ← raiseFault_eq]
  rw [acceptWord_of_command hd hne, acceptCommand_outOfPhase hc hp ha]

theorem acceptWord_executes (hc : cmdReady s = true) (hd : decodeCmd cmd = .ok i)
    (ha : allowedPhase i s.phase = true) : acceptWord cmd s = .next (commandEffect i s) := by
  obtain ⟨hi, hw, -⟩ := decodeCmd_ok hd
  simp only [acceptWord, hd]
  exact exec_command_executes hi hw hc ha

end AcceptWord

/-- Settles O3: the six cases, the words counted command by command, and the two outcomes of a reserved word. -/
theorem legalWordsAndReservedWords : Obligations.LegalWordsAndReservedWords := by
  refine ⟨legalCmd_iff_fields, ?_, fun s cmd rest hl hp hc => ⟨fun hf => ?_, fun hf => ?_⟩⟩
  · exact filter_legalCmd_perm.length_eq.trans length_legalWords
  · rw [step_cmd_ready hp hc]
    exact acceptWord_illegal hc hf hl
  · have hne : cmd ≠ 0x600 := by
      rintro rfl
      cases hl
    rw [step_cmd_ready hp hc]
    exact acceptWord_inFault hc hf hne

/-! ## The order of the checks (R88) -/

/-- The phases a legal word other than RDSTAT executes in, by its `op` (R88, R203). -/
theorem allowedPhase_iff_op {cmd : BitVec 12} {i : Instr} (hd : decodeCmd cmd = .ok i) (hne : cmd ≠ 0x600)
    (p : Phase) :
    allowedPhase i p = true ↔
      (opOf cmd = 0x1 ∧ (p = .idle ∨ p = .done)) ∨ ((opOf cmd = 0x2 ∨ opOf cmd = 0x3) ∧ p = .absorb) ∨
      ((opOf cmd = 0x4 ∨ opOf cmd = 0x5) ∧ p = .done) := by
  have hinit : opOf 0x100#12 = 0x1#4 := rfl
  have hfinal : opOf 0x300#12 = 0x3#4 := rfl
  rcases decodeCmd_word hd with ⟨rfl, rfl⟩ | ⟨b, rfl, rfl⟩ | ⟨rfl, rfl⟩ | ⟨k, rfl, rfl, -⟩ | ⟨j, rfl, rfl, -⟩ |
    ⟨-, h⟩
  · simp [allowedPhase, hinit]
  · simp [allowedPhase]
  · simp [allowedPhase, hfinal]
  · simp [allowedPhase]
  · simp [allowedPhase]
  · exact absurd h hne

/-- No command writes `fcode` (R30). -/
@[simp] theorem commandEffect_fcode (i : Instr) (s : State) : (commandEffect i s).fcode = s.fcode := by
  cases i <;> simp [commandEffect]

/-- A command that executes raises no fault (R88). -/
theorem commandEffect_phase_ne_fault {i : Instr} {s : State} (hp : s.phase ≠ .fault) :
    (commandEffect i s).phase ≠ .fault := by
  cases i <;> simp [commandEffect, hp]

/-- Settles O27: the five outcomes of an accepted word, each by the first check that applies. -/
theorem acceptedWordsAreDecidedInOrder : Obligations.AcceptedWordsAreDecidedInOrder := by
  intro s cmd rest hp hc op allowed
  have hallowed : ∀ {i}, decodeCmd cmd = .ok i → cmd ≠ 0x600 → (allowedPhase i s.phase = true ↔ allowed) :=
    fun hd hne => allowedPhase_iff_op hd hne s.phase
  rw [step_cmd_ready hp hc]
  refine ⟨?_, fun hne hf => acceptWord_inFault hc hf hne, fun hf hl => acceptWord_illegal hc hf hl,
    fun hne hf hl hna => ?_, fun hne hf hl ha => ?_⟩
  · rintro rfl
    exact acceptWord_rdstat hc
  · obtain ⟨i, hd⟩ := (legalCmd_iff cmd).1 hl
    have ha : allowedPhase i s.phase = false := Bool.eq_false_iff.2 fun h => hna ((hallowed hd hne).1 h)
    exact acceptWord_outOfPhase hc hf hd hne ha
  · obtain ⟨i, hd⟩ := (legalCmd_iff cmd).1 hl
    have ha' : allowedPhase i s.phase = true := (hallowed hd hne).2 ha
    exact ⟨i, _, hd, by rw [acceptWord, hd], acceptWord_executes hc hd ha', commandEffect_phase_ne_fault hf,
      commandEffect_fcode i _⟩

/-! ## Which words respond (R83) -/

/-- A command that executes responds exactly when it is RDHEX, RDDIG or RDSTAT (R83). -/
theorem commandEffect_rsp_isSome {i : Instr} (hi : isEngineStep i = false) (s : State) :
    (commandEffect i s).rsp.isSome = respondsInstr i := by
  cases i with
  | init | absorb | final | rdhex | rddig | rdstat => simp [commandEffect, respondsInstr]
  | roundF | roundG | roundH | roundI | feedfwd | padstep0 | padstep1 | padstep2 => cases hi

/-- A word that is not executed answers as R83 says: 0x00 where its `op` responds (R204, R206). -/
theorem zeroResponse_dependsOnOp {op : BitVec 4} {t : State}
    (h : t.rsp = if respondsOp op = true then some 0x00 else none) :
    (t.rsp.isSome = true ↔ respondsOp op = true) ∧
      (op ∈ [0x4#4, 0x5#4] → t.phase = .fault → t.rsp = some 0x00) := by
  rw [h]
  refine ⟨by simp, fun hop _ => if_pos ((respondsOp_iff_mem op).2 ?_)⟩
  exact List.mem_append_left [0x6#4] hop

/-- Settles O30: by what the acceptance of the word comes to. -/
theorem responseDependsOnOpAlone : Obligations.ResponseDependsOnOpAlone := by
  intro s cmd rest hp hc
  obtain ⟨t, ht⟩ := acceptWord_ready (cmd := cmd) (s := { s with port := rest }) hc
  refine ⟨t, (step_cmd_ready hp hc).trans ht, ?_⟩
  rw [show cmd.extractLsb' 8 4 = opOf cmd from rfl, ← respondsOp_iff_mem]
  rcases acceptWord_cases ht with ⟨-, -, rfl⟩ | ⟨-, -, rfl⟩ | ⟨i, -, -, -, rfl⟩ | ⟨i, hd, ha, rfl⟩
  · exact zeroResponse_dependsOnOp (by rw [respondZeroIf_eq])
  · exact zeroResponse_dependsOnOp (by rw [raiseFault_eq])
  · exact zeroResponse_dependsOnOp (by rw [raiseFault_eq])
  · obtain ⟨hi, -, hr⟩ := decodeCmd_ok hd
    rw [commandEffect_rsp_isSome hi, hr]
    refine ⟨Iff.rfl, fun hop hfault => absurd hfault (commandEffect_phase_ne_fault ?_)⟩
    have hne : cmd ≠ 0x600 := by
      rintro rfl
      exact absurd hop (by decide)
    intro hf
    simpa using (allowedPhase_iff_op hd hne .fault).1 (hf ▸ ha)

/-! ## Steps never stop -/

/-- Settles O42: the one step that stops has `i` above 64, which the invariant excludes. -/
theorem invariantStatesNeverStop : Obligations.InvariantStatesNeverStop := by
  intro s hinv
  cases h : step s with
  | next t => exact ⟨t, rfl⟩
  | fault r => cases r
  | refused r =>
    obtain ⟨hi, -, -, -⟩ := hinv
    obtain ⟨-, -, hlt⟩ := stepsStopOnlyOnCodesNeverProduced s r h
    exact absurd hlt (BitVec.not_lt.2 hi)

/-! ## The instruction of a table word (log 1, log 11) -/

section SeqWordFields
variable (s : State)

theorem seqWord_run : (seqWord s).getLsbD 7 = s.run := by
  rw [seqWord, BitVec.getLsbD_append, BitVec.getLsbD_append]
  simp

theorem seqWord_i : (seqWord s).extractLsb' 0 7 = s.i := BitVec.extractLsb'_append_eq_right

theorem seqWord_group : (seqWord s).extractLsb' 4 3 = s.i.extractLsb' 4 3 :=
  BitVec.extractLsb'_append_eq_of_add_le (by decide)

theorem seqWord_fst : (seqWord s).extractLsb' 8 2 = s.fst.code := by
  rw [seqWord, BitVec.extractLsb'_append_eq_of_le (by decide), BitVec.extractLsb'_append_eq_of_le (by decide)]
  exact BitVec.extractLsb'_append_eq_right

theorem seqWord_phase : (seqWord s).extractLsb' 10 3 = s.phase.code := by
  rw [seqWord, BitVec.extractLsb'_append_eq_of_le (by decide), BitVec.extractLsb'_append_eq_of_le (by decide)]
  exact BitVec.extractLsb'_append_eq_left

end SeqWordFields

/-- The fields that placeSeq writes select the step that its word stands for. -/
theorem selectedStep_placeSeq {seq : BitVec 13} {j : Instr} (hd : decodeSeq seq = .ok j) (s : State) :
    selectedStep (placeSeq seq s) = some j := by
  rw [decodeSeq_ok_iff_seqRow] at hd
  rw [← decodeSeq_eq_ok_iff, decodeSeq_ok_iff_seqRow]
  cases j with
  | roundF | roundG | roundH | roundI =>
    obtain ⟨hrun, hgroup⟩ := hd
    refine ⟨?_, ?_⟩
    · rw [seqWord_run]; exact hrun
    · rw [seqWord_group, placeSeq, BitVec.extractLsb'_extractLsb'_of_le (by decide)]; exact hgroup
  | feedfwd =>
    obtain ⟨hrun, hi⟩ := hd
    exact ⟨(seqWord_run _).trans hrun, (seqWord_i _).trans hi⟩
  | padstep0 | padstep1 | padstep2 =>
    obtain ⟨hphase, hfst, hrun⟩ := hd
    refine ⟨?_, ?_, (seqWord_run _).trans hrun⟩
    · rw [seqWord_phase, placeSeq, hphase]; rfl
    · rw [seqWord_fst, placeSeq, hfst]; rfl
  | init | absorb | final | rdhex | rddig | rdstat => exact hd.elim

/-- Where the sequencer selects a step the engine is busy (R6, R155). -/
theorem cmdReady_of_selectedStep {s : State} {j : Instr} (hs : selectedStep s = some j) : cmdReady s = false := by
  rcases selectedStep_cases hs with ⟨hrun, -⟩ | ⟨hrun, -⟩ | ⟨-, hp, -⟩ | ⟨-, hp, -⟩ | ⟨-, hp, -⟩
  · simp [cmdReady, hrun]
  · simp [cmdReady, hrun]
  · simp [cmdReady, hp]
  · simp [cmdReady, hp]
  · simp [cmdReady, hp]

theorem step_placeSeq {seq : BitVec 13} {j : Instr} (hd : decodeSeq seq = .ok j) (s : State) :
    step (placeSeq seq s) = exec j { placeSeq seq s with port := s.port } := by
  have hs : selectedStep { placeSeq seq s with port := s.port } = some j := selectedStep_placeSeq hd s
  rw [step_pause rfl, withoutCommand_engine rfl (cmdReady_of_selectedStep hs), engineStep_selected hs]

theorem cmdReady_placeCommand (cmd : BitVec 12) (s : State) : cmdReady (placeCommand cmd s) = true := by
  by_cases hp : s.phase = .final <;> simp [cmdReady_iff, placeCommand, hp]

theorem step_placeCommand {cmd : BitVec 12} {i : Instr} (hd : decodeCmd cmd = .ok i) (s : State) :
    step (placeCommand cmd s) = exec i { placeCommand cmd s with port := s.port } := by
  rw [step_cmd_ready rfl (cmdReady_placeCommand cmd s), acceptWord, hd]

theorem toOption_eq_some_iff {ε α : Type} {x : Except ε α} {a : α} : x.toOption = some a ↔ x = .ok a := by
  cases x <;> simp [Except.toOption]

/-- Settles O59: a command word is taken from the port, a SEQ13 word from the sequencer fields. -/
theorem fetchWordRunsTheTableWord : Obligations.FetchWordRunsTheTableWord := by
  intro s w i hw
  simp only [decodeTableWord] at hw
  simp only [State.withFetchWord, placeTableWord]
  split at hw
  case isTrue hcmd =>
    have hd : decodeCmd (BitVec.ofNat 12 (w % 2 ^ 16)) = .ok i := toOption_eq_some_iff.1 hw
    rw [if_pos hcmd, step_placeCommand hd]
    exact ⟨_, rfl, rfl, rfl, rfl⟩
  case isFalse hcmd =>
    split at hw
    case isTrue hlt =>
      have hd : decodeSeq (BitVec.ofNat 13 (w % 2 ^ 16)) = .ok i := toOption_eq_some_iff.1 hw
      have hseq : (decide (w % 2 ^ 16 < 2 ^ 13) && (decodeSeq (BitVec.ofNat 13 (w % 2 ^ 16))).toBool) = true := by
        rw [hd, decide_eq_true hlt]
        rfl
      rw [if_neg hcmd, if_pos hseq, step_placeSeq hd]
      exact ⟨_, rfl, rfl, rfl, rfl⟩
    case isFalse => cases hw

end Sys2Proof.Machine

/-! PROOFS. The statements of 40_padder.md: the results of ABSORB, FINAL and the three PADSTEP steps (R112 to R116),
the layout of the padded message (R110, R111), and what absorbing a byte and ending the message come to (R117). -/

namespace Sys2Proof.Machine

/-! ## The commands of the padder (R112, R113) -/

/-- `lenovf` after an ABSORB as one Boolean (R26). -/
theorem lenovfAfterAbsorb_eq_or (bitlen : Word) (lenovf : Bool) :
    lenovfAfterAbsorb bitlen lenovf = (lenovf || bitlen == 0xfffffff8) := by
  rw [lenovfAfterAbsorb]
  split
  case isTrue hwrap => simp [hwrap]
  case isFalse hwrap => rw [beq_false_of_ne hwrap, Bool.or_false]

/-- Settles O15: the effect of ABSORB, field by field; the block is dispatched when the fill pointer is 63. -/
theorem absorbAppendsAByte : Obligations.AbsorbAppendsAByte := by
  intro s b hc hp
  have hexec : exec (.absorb b) s = .next (absorbByte b s) :=
    exec_command_executes rfl rfl hc (by simp [allowedPhase, hp])
  have hM : ∀ q, bufByte (absorbByte b s).M q =
      if q = fillPointer s.bitlen then bufByte s.M q ||| b else bufByte s.M q := by
    simp [bufByte_bufOrByte]
  have hlen : (absorbByte b s).bitlen.toNat = (s.bitlen.toNat + 8) % 2 ^ 32 := by
    simp [BitVec.toNat_add]
  have hovf : (absorbByte b s).lenovf = (s.lenovf || s.bitlen == 0xfffffff8) := by
    rw [absorbByte_lenovf, lenovfAfterAbsorb_eq_or]
  have hfull : fillPointer s.bitlen = 63 →
      (absorbByte b s).w = s.H ∧ (absorbByte b s).i = 0 ∧ (absorbByte b s).run = true :=
    fun h => ⟨(absorbByte_w s b).trans (if_pos h), (absorbByte_i s b).trans (if_pos h),
      (absorbByte_run s b).trans (if_pos h)⟩
  have hopen : fillPointer s.bitlen ≠ 63 →
      (absorbByte b s).w = s.w ∧ (absorbByte b s).i = s.i ∧ (absorbByte b s).run = s.run :=
    fun h => ⟨(absorbByte_w s b).trans (if_neg h), (absorbByte_i s b).trans (if_neg h),
      (absorbByte_run s b).trans (if_neg h)⟩
  exact ⟨absorbByte b s, hexec, (hM _).trans (if_pos rfl), fun q hq => (hM q).trans (if_neg hq), hlen, hovf, hfull,
    hopen, absorbByte_H s b, absorbByte_phase s b, absorbByte_fst s b, absorbByte_fcode s b, absorbByte_rst s b,
    absorbByte_port s b, absorbByte_draws s b, absorbByte_rsp s b⟩

/-- Settles O17: the terminator is ORed in at the fill pointer. -/
theorem finalPlacesTheTerminator : Obligations.FinalPlacesTheTerminator := by
  intro s hc hp
  have hexec : exec .final s = .next (placeTerminator s) :=
    exec_command_executes rfl rfl hc (by simp [allowedPhase, hp])
  have hM : ∀ q, bufByte (placeTerminator s).M q =
      if q = fillPointer s.bitlen then bufByte s.M q ||| 0x80 else bufByte s.M q := by
    simp [bufByte_bufOrByte]
  exact ⟨placeTerminator s, hexec, (hM _).trans (if_pos rfl), fun q hq => (hM q).trans (if_neg hq), rfl, rfl, rfl,
    rfl, rfl, rfl, rfl, rfl, rfl, rfl, rfl, rfl, rfl⟩

/-! ## The steps of finalisation (R114 to R116) -/

section Finalisation
variable {s : State}

theorem selectedStep_padstep0 (hp : s.phase = .final) (hf : s.fst = .terminatorPlaced) (hr : s.run = false) :
    selectedStep s = some .padstep0 := by
  simp [selectedStep, nextEngineStep, hp, hf, hr]

theorem selectedStep_padstep1 (hp : s.phase = .final) (hf : s.fst = .spillDispatched) (hr : s.run = false) :
    selectedStep s = some .padstep1 := by
  simp [selectedStep, nextEngineStep, hp, hf, hr]

theorem selectedStep_padstep2 (hp : s.phase = .final) (hf : s.fst = .lengthDispatched) (hr : s.run = false) :
    selectedStep s = some .padstep2 := by
  simp [selectedStep, nextEngineStep, hp, hf, hr]

/-- PADSTEP0 spills: the block goes to the compressor as it stands (R114). -/
theorem padFirst_of_spill (h : 56#6 ≤ fillPointer s.bitlen) :
    padFirst s = loadw { s with fst := .spillDispatched } :=
  if_pos h

/-- PADSTEP0 writes the length words into the same block (R114). -/
theorem padFirst_of_fits (h : fillPointer s.bitlen < 56#6) : padFirst s = dispatchLengthBlock s :=
  if_neg (BitVec.not_le.2 h)

/-- The block of the length words: word 14, word 15, and the bytes below them kept (R114, R115). -/
theorem dispatchLengthBlock_words (s : State) :
    bufWord (dispatchLengthBlock s).M 14 = s.bitlen ∧ bufWord (dispatchLengthBlock s).M 15 = 0 ∧
      ∀ q : BitVec 6, q < 56 → bufByte (dispatchLengthBlock s).M q = bufByte s.M q :=
  ⟨bufWord_storeLength_14 _ _, bufWord_storeLength_15 _ _, fun q hq => bufByte_storeLength_low _ _ q hq⟩

end Finalisation

/-- Settles O21: both branches of PADSTEP0, and what LOADW leaves in either. -/
theorem padstep0SpillsOrWritesTheLength : Obligations.Padstep0SpillsOrWritesTheLength := by
  intro s hrst hp hf hr
  refine ⟨noResponse (padFirst s), exec_selected hrst (selectedStep_padstep0 hp hf hr), ?_, ?_, ?_⟩
  · intro hspill
    rw [padFirst_of_spill hspill]
    exact ⟨rfl, rfl⟩
  · intro hfits
    rw [padFirst_of_fits hfits]
    exact ⟨rfl, dispatchLengthBlock_words s⟩
  · simp

/-- Settles O22: the length words are written and the block is dispatched. -/
theorem padstep1DispatchesTheLengthBlock : Obligations.Padstep1DispatchesTheLengthBlock := by
  intro s hrst hp hf hr
  obtain ⟨hlow, hhigh, hkept⟩ := dispatchLengthBlock_words s
  exact ⟨noResponse (dispatchLengthBlock s), exec_selected hrst (selectedStep_padstep1 hp hf hr), hlow, hhigh, hkept,
    rfl, rfl, rfl, rfl, rfl, rfl, rfl, rfl, rfl, rfl, rfl, rfl, rfl⟩

/-- Settles O23: phase DONE is entered with `run` = 0, so the engine is ready. -/
theorem padstep2EndsTheFinalisation : Obligations.Padstep2EndsTheFinalisation := by
  intro s hrst hp hf hr
  refine ⟨noResponse (padLast s), exec_selected hrst (selectedStep_padstep2 hp hf hr), rfl, rfl, ?_⟩
  exact (cmdReady_iff _).2 ⟨hr, by simp, hrst⟩

/-! ## The layout of the padded message (R110, R111) -/

theorem length_paddedMessage (msg : List Byte) : (paddedMessage msg).length = wordCount msg.length := by
  simp [paddedMessage]

/-- The number of blocks is the least that leaves room for the terminator and the eight length bytes (R110). -/
theorem blockCount_bounds (L : Nat) : 64 * blockCount L ≤ L + 72 ∧ L + 9 ≤ 64 * blockCount L := by
  unfold blockCount
  omega

/-- Below the length words the padded message is the message, 0x80 and zeros, byte by byte. -/
theorem listByte_paddedMessage_below {msg : List Byte} {n : Nat} (h : n + 9 ≤ 64 * blockCount msg.length) :
    listByte (paddedMessage msg) n = (msg ++ [0x80]).getD n 0 :=
  listByte_paddedMessage (by simp only [wordCount]; omega)

/-- The high length word is never written (R110). -/
theorem getD_paddedMessage_last (msg : List Byte) : (paddedMessage msg).getD (wordCount msg.length - 1) 0 = 0 := by
  obtain ⟨-, hroom⟩ := blockCount_bounds msg.length
  apply word_ext_bytes
  intro n hn
  have hdiv : (4 * (wordCount msg.length - 1) + n) / 4 = wordCount msg.length - 1 := by omega
  have hmod : (4 * (wordCount msg.length - 1) + n) % 4 = n % 4 := by omega
  have hbyte : listByte (paddedMessage msg) (4 * (wordCount msg.length - 1) + n) = 0 := by
    rw [listByte_paddedMessage (by rw [hdiv]; simp only [wordCount]; omega)]
    exact List.getD_eq_default _ _ (by simp [wordCount]; omega)
  rw [byteOfWord_zero, ← hbyte]
  simp only [listByte, byteOfWord, hdiv, hmod]

/-- Settles O58: the bytes below the length words, then the two length words. -/
theorem paddedMessageLayout : Obligations.PaddedMessageLayout := by
  intro msg L NB byte
  obtain ⟨hupper, hlower⟩ := blockCount_bounds msg.length
  have hbyte : ∀ n, n + 9 ≤ 64 * NB → byte n = (msg ++ [0x80]).getD n 0 := fun n => listByte_paddedMessage_below
  refine ⟨length_paddedMessage msg, hupper, hlower, ?_, ?_, ?_, getD_paddedMessage_length msg,
    getD_paddedMessage_last msg⟩
  · intro n hn
    rw [hbyte n (by omega), List.getD_append _ _ _ _ hn]
  · rw [hbyte L hlower]
    simp [L]
  · intro n hn hroom
    rw [hbyte n hroom]
    exact List.getD_eq_default _ _ (by simp; omega)

/-! ## Engine steps of a run (R155, R160) -/

/-- A busy engine takes its selected step, whatever the HOST does short of reset (R155). -/
theorem step_selected {s : State} {j : Instr} (hrst : s.rst = false) (hs : selectedStep s = some j)
    (hn : noResetNow s.port = true) :
    step s = .next (noResponse (engineEffect j { s with port := portAfterWait s.port })) := by
  rw [step_wait hn (.inl (cmdReady_of_selectedStep hs))]
  exact withoutCommand_selected hrst (cmdReady_of_selectedStep hs) hs

/-- With `run` = 1 and a round index below 64 the step is that round of the reference (R134 to R138). -/
theorem step_round {s : State} (hrst : s.rst = false) (hrun : s.run = true) (hi : s.i < 64)
    (hn : noResetNow s.port = true) :
    step s = .next { s with
      w := roundFn (roundIndex s.i) s.w s.M, i := s.i + 1, rsp := none, port := portAfterWait s.port } := by
  have hbusy : cmdReady s = false := by simp [cmdReady, hrun]
  cases hs : selectedStep s with
  | none =>
    obtain ⟨-, hbad⟩ := selectedStep_eq_none hs hbusy hrst
    bv_omega
  | some j =>
    rw [step_selected hrst hs hn]
    rcases selectedStep_cases (s := { s with port := portAfterWait s.port }) hs with ⟨-, -, he⟩ | ⟨-, h64, -⟩ |
      ⟨hr, -⟩ | ⟨hr, -⟩ | ⟨hr, -⟩
    · rw [he]
      rfl
    · exact absurd hi (by rw [show s.i = 64 from h64]; decide)
    all_goals exact absurd (hrun.symm.trans hr) (by decide)

/-- At `i` = 64 the step is FEEDFWD (R139, R155). -/
theorem step_feedfwd {s : State} (hrst : s.rst = false) (hrun : s.run = true) (hi : s.i = 64)
    (hn : noResetNow s.port = true) :
    step s = .next (noResponse (feedForward { s with port := portAfterWait s.port })) :=
  step_selected (j := .feedfwd) hrst (by simp [selectedStep, nextEngineStep, hrun, hi]) hn

/-! ## The compression of a dispatched block (R141) -/

theorem noReset_iterate_portAfterWait {moves : List HostMove} (h : NoReset moves) (k : Nat) :
    NoReset (portAfterWait^[k] moves) := by
  induction k with
  | zero => exact h
  | succ k ih =>
    rw [Function.iterate_succ_apply']
    exact noReset_portAfterWait ih

/-- The HOST only presents commands: no pause and no reset move. -/
def OnlyCommands (moves : List HostMove) : Prop := NoReset moves ∧ HostMove.pause ∉ moves

theorem OnlyCommands.noResetNow {moves : List HostMove} (h : OnlyCommands moves) : noResetNow moves = true :=
  noResetNow_of_noReset h.1

/-- A HOST that never pauses keeps its moves while it waits. -/
theorem OnlyCommands.portAfterWait {moves : List HostMove} (h : OnlyCommands moves) : portAfterWait moves = moves := by
  obtain ⟨-, hpause⟩ := h
  cases moves with
  | nil => rfl
  | cons m rest => cases m <;> simp_all [Machine.portAfterWait]

/-- While the HOST only presents commands a busy engine's step leaves the port alone. -/
theorem OnlyCommands.step_selected {s : State} {j : Instr} (h : OnlyCommands s.port) (hrst : s.rst = false)
    (hs : selectedStep s = some j) : step s = .next (noResponse (engineEffect j s)) := by
  rw [Machine.step_selected hrst hs h.noResetNow, h.portAfterWait]

section Compression
variable {s : State}

/-- The first `k` rounds after a dispatch (R134, R140). -/
theorem runSteps_rounds (hrst : s.rst = false) (hrun : s.run = true) (hi : s.i = 0) (hn : NoReset s.port) {k : Nat}
    (hk : k ≤ 64) :
    ∃ rsp, runSteps k s = .next { s with
      w := roundsFn s.M k s.w, i := BitVec.ofNat 7 k, rsp := rsp, port := portAfterWait^[k] s.port } := by
  induction k with
  | zero =>
    refine ⟨s.rsp, ?_⟩
    rw [← show s.i = BitVec.ofNat 7 0 from hi]
    rfl
  | succ k ih =>
    obtain ⟨rsp, hrounds⟩ := ih (by omega)
    have hlt : BitVec.ofNat 7 k < 64 := by bv_omega
    have hnext : BitVec.ofNat 7 (k + 1) = BitVec.ofNat 7 k + 1 := BitVec.ofNat_add k 1
    have hidx : roundIndex (BitVec.ofNat 7 k) = BitVec.ofNat 6 k := by
      apply BitVec.eq_of_toNat_eq
      simp [roundIndex, BitVec.extractLsb'_toNat]
    refine ⟨none, ?_⟩
    rw [runSteps_snoc hrounds
      (step_round hrst hrun hlt (noResetNow_of_noReset (noReset_iterate_portAfterWait hn k)))]
    simp only [hidx, hnext, roundsFn, Function.iterate_succ_apply']

/-- The state in which FEEDFWD leaves a block dispatched in `s`, for the working variables `w` of the last round and
with these moves of the HOST still to come (R139). `w` is an argument so that no proof has to unfold the sixty-four
rounds to look at another field. -/
def blockDone (s : State) (w : Quad) (moves : List HostMove) : State :=
  noResponse (feedForward { s with w := w, i := 64, port := moves })

/-- FEEDFWD after the sixty-four rounds is `compress` (R140). -/
theorem blockDone_H {w : Quad} (hw : w = roundsFn s.M 64 s.H) (moves : List HostMove) :
    (blockDone s w moves).H = compress s.H s.M := by
  rw [compress, ← hw]
  rfl

/-- The sixty-four rounds and FEEDFWD (R141). -/
theorem runSteps_compression (hrst : s.rst = false) (hrun : s.run = true) (hi : s.i = 0) (hw : s.w = s.H)
    (hn : NoReset s.port) {w : Quad} (hlast : w = roundsFn s.M 64 s.H) :
    runSteps 65 s = .next (blockDone s w (portAfterWait^[65] s.port)) := by
  obtain ⟨rsp, hrounds⟩ := runSteps_rounds hrst hrun hi hn (Nat.le_refl 64)
  rw [hw, ← hlast] at hrounds
  rw [Function.iterate_succ_apply']
  exact runSteps_snoc hrounds
    (step_feedfwd hrst hrun rfl (noResetNow_of_noReset (noReset_iterate_portAfterWait hn 64)))

end Compression

/-! ## The message across a compression (R117, R157) -/

/-- A block of the message `msg` has just been dispatched, by ABSORB, PADSTEP0 or PADSTEP1 (R117, R133). -/
structure Dispatched (msg : List Byte) (s : State) : Prop where
  rst : s.rst = false
  run : s.run = true
  i : s.i = 0
  working : s.w = s.H
  phase : s.phase = .absorb ∨ s.phase = .final
  fcode : s.fcode = .none
  tracks : Tracks msg s

/-- `bitlen` counts whole bytes, so its three low bits are zero (R38 (d)). -/
theorem lowBits_of_length (L : Nat) : (BitVec.ofNat 32 (8 * L)).extractLsb' 0 3 = 0 := by
  apply BitVec.eq_of_toNat_eq
  simp [BitVec.extractLsb'_toNat]

section Dispatched
variable {msg : List Byte} {s : State}

/-- When the rounds of a dispatched block are done the state meets R38 (a) to (d). -/
theorem Dispatched.inv_rounds (h : Dispatched msg s) {w : Quad} {moves : List HostMove} :
    Inv { s with w := w, i := 64, port := moves } := by
  have hfault : s.phase ≠ .fault := by rcases h.phase with hp | hp <;> simp [hp]
  refine ⟨BitVec.le_refl 64#7, fun _ => h.phase, by simp [h.fcode, hfault], fun hp => ?_⟩
  rw [(h.tracks.length hp).1, lowBits_of_length]

/-- Sixty-five steps compress a dispatched block and take Tracks to the stage after it (R117, R160). -/
theorem Dispatched.exists_blockDone (h : Dispatched msg s) (hport : OnlyCommands s.port) :
    ∃ w, runSteps 65 s = .next (blockDone s w s.port) ∧ Tracks msg (blockDone s w s.port) := by
  obtain ⟨w, hw⟩ : ∃ w, w = roundsFn s.M 64 s.H := ⟨_, rfl⟩
  have hrounds : Tracks msg { s with w := w, i := 64, port := s.port } :=
    tracks_of_compressing h.tracks fun n _ hcomp => ⟨hcomp.chain, hcomp.block, hw⟩
  refine ⟨w, ?_, tracks_ports (tracks_feedForward h.inv_rounds hrounds h.run rfl)⟩
  rw [runSteps_compression h.rst h.run h.i h.working hport.1 hw, Function.iterate_fixed hport.portAfterWait]

end Dispatched

/-! ## Absorbing a byte (R112, R117) -/

section Absorbed
variable {msg : List Byte} {s : State}

theorem Absorbed.tracks (h : Absorbed msg s) : Tracks msg s := by
  refine tracks_filling h.phase h.run ⟨h.bitlen, h.lenovf⟩ (fun q => ?_) h.chain
  by_cases hq : q.val < msg.length % 64
  · rw [h.bytes q hq, getD_openBytes]
  · rw [h.zeros q (by omega), List.getD_eq_default _ _ (by rw [length_openBytes]; omega)]

theorem absorbed_of_tracks (h : Tracks msg s) (hrst : s.rst = false) (hp : s.phase = .absorb)
    (hf : s.fst = .terminatorPlaced) (hr : s.run = false) (hcode : s.fcode = .none) : Absorbed msg s := by
  obtain ⟨hbitlen, hlenovf⟩ := h.length (.inl hp)
  obtain ⟨hM, hH⟩ := h.filling hp hr
  refine ⟨hrst, hp, hf, hr, hcode, hbitlen, hlenovf, fun q _ => ?_, fun q hq => ?_, hH⟩
  · rw [hM q, getD_openBytes]
  · rw [hM q, List.getD_eq_default _ _ (by rw [length_openBytes]; exact hq)]

/-- Absorbed reads the registers and the reset input alone. -/
theorem Absorbed.withPort (h : Absorbed msg s) (moves : List HostMove) : Absorbed msg { s with port := moves } :=
  ⟨h.rst, h.phase, h.fst, h.run, h.fcode, h.bitlen, h.lenovf, h.bytes, h.zeros, h.chain⟩

/-- A command of phase ABSORB at the port executes (R88, R203). -/
theorem Absorbed.step_command (h : Absorbed msg s) {cmd : BitVec 12} {rest : List HostMove} {i : Instr}
    (hport : s.port = .cmd cmd :: rest) (hd : decodeCmd cmd = .ok i) (ha : allowedPhase i .absorb = true) :
    step s = .next (commandEffect i { s with port := rest }) := by
  have hc : cmdReady s = true := (cmdReady_iff s).2 ⟨h.run, by simp [h.phase], h.rst⟩
  rw [← h.phase] at ha
  rw [step_cmd_ready hport hc]
  exact acceptWord_executes hc hd ha

/-- The fill pointer is at the last byte of the block exactly when one byte is missing (R25). -/
theorem Absorbed.fillPointer_eq_last_iff (h : Absorbed msg s) :
    fillPointer s.bitlen = 63 ↔ msg.length % 64 = 63 := by
  rw [← BitVec.toNat_inj, h.bitlen, fillPointer_of_length]
  rfl

/-- An ABSORB that leaves the block open. -/
theorem Absorbed.absorbByte_open (h : Absorbed msg s) (b : Byte) (hmod : msg.length % 64 ≠ 63) :
    Absorbed (msg ++ [b]) (absorbByte b s) := by
  have hlast : fillPointer s.bitlen ≠ 63 := mt h.fillPointer_eq_last_iff.1 hmod
  apply absorbed_of_tracks (tracks_absorbByte_open b h.tracks h.phase h.run hmod)
  · rw [absorbByte_rst, h.rst]
  · rw [absorbByte_phase, h.phase]
  · rw [absorbByte_fst, h.fst]
  · rw [absorbByte_run, if_neg hlast, h.run]
  · rw [absorbByte_fcode, h.fcode]

/-- An ABSORB that fills the block dispatches it. -/
theorem Absorbed.absorbByte_full (h : Absorbed msg s) (b : Byte) (hmod : msg.length % 64 = 63) :
    Dispatched (msg ++ [b]) (absorbByte b s) := by
  have hlast : fillPointer s.bitlen = 63 := h.fillPointer_eq_last_iff.2 hmod
  constructor
  case rst => rw [absorbByte_rst, h.rst]
  case run => rw [absorbByte_run, if_pos hlast]
  case i => rw [absorbByte_i, if_pos hlast]
  case working => rw [absorbByte_w, if_pos hlast, absorbByte_H]
  case phase => exact .inl ((absorbByte_phase s b).trans h.phase)
  case fcode => rw [absorbByte_fcode, h.fcode]
  case tracks => exact tracks_absorbByte_full b h.tracks h.phase h.run hmod

end Absorbed

/-- Settles O49: ABSORB leaves the block open or dispatches it, and its compression gives the next chaining value. -/
theorem absorbExtendsTheMessage : Obligations.AbsorbExtendsTheMessage := by
  intro s msg b rest habs hport hn hpause
  have hself := habs.withPort rest
  have hstep : runSteps 1 s = .next (absorbByte b { s with port := rest }) :=
    runSteps_one (habs.step_command hport (decodeCmd_absorb b) rfl)
  have hkept : (absorbByte b { s with port := rest }).port = rest := absorbByte_port _ b
  by_cases hmod : msg.length % 64 = 63
  · have hdisp := hself.absorbByte_full b hmod
    obtain ⟨w, hrun, htracks⟩ := hdisp.exists_blockDone (by rw [hkept]; exact ⟨hn, hpause⟩)
    rw [if_pos hmod, runSteps_add hstep, hrun]
    refine ⟨_, rfl, absorbed_of_tracks htracks hdisp.rst ?_ ?_ rfl hdisp.fcode, hkept⟩
    · exact (absorbByte_phase _ b).trans habs.phase
    · exact (absorbByte_fst _ b).trans habs.fst
  · rw [if_neg hmod]
    exact ⟨_, hstep, hself.absorbByte_open b hmod, hkept⟩

/-! ## Ending the message (R113 to R117) -/

/-- The message `msg` is being ended and no compression is in progress: the next step is a PADSTEP (R155). -/
structure Finalising (msg : List Byte) (s : State) : Prop where
  rst : s.rst = false
  run : s.run = false
  phase : s.phase = .final
  fcode : s.fcode = .none
  tracks : Tracks msg s

/-- The digest of `msg` stands in A to D and the engine waits in phase DONE (R116, R157). -/
structure Digested (msg : List Byte) (s : State) : Prop where
  rst : s.rst = false
  run : s.run = false
  phase : s.phase = .done
  fcode : s.fcode = .none
  lenovf : s.lenovf = decide (2 ^ 29 ≤ msg.length)
  digest : s.H = md5State msg

/-- `k` steps from `s` end with the digest of `msg`, and the HOST's moves are all still to come. -/
def DigestedAfter (k : Nat) (msg : List Byte) (s : State) : Prop :=
  ∃ t, runSteps k s = .next t ∧ Digested msg t ∧ t.port = s.port

section Ending
variable {msg : List Byte} {s : State}

/-- A run that keeps the port can be put before one that ends with the digest. -/
theorem DigestedAfter.prepend {t : State} {j k : Nat} (h : DigestedAfter k msg t) (hrun : runSteps j s = .next t)
    (hport : t.port = s.port) : DigestedAfter (j + k) msg s := by
  obtain ⟨u, hu, hdig, hup⟩ := h
  exact ⟨u, (runSteps_add hrun k).trans hu, hdig, hup.trans hport⟩

/-- After the compression of a block dispatched in phase FINAL a PADSTEP follows. -/
theorem Dispatched.finalising_blockDone (h : Dispatched msg s) (hp : s.phase = .final) {w : Quad}
    {moves : List HostMove} (htracks : Tracks msg (blockDone s w moves)) : Finalising msg (blockDone s w moves) :=
  ⟨h.rst, rfl, hp, h.fcode, htracks⟩

theorem Finalising.dispatched_padFirst (h : Finalising msg s) (hf : s.fst = .terminatorPlaced) :
    Dispatched msg (noResponse (padFirst s)) where
  rst := (padFirst_rst s).trans h.rst
  run := padFirst_run s
  i := padFirst_i s
  working := (padFirst_w s).trans (padFirst_H s).symm
  phase := .inr ((padFirst_phase s).trans h.phase)
  fcode := (padFirst_fcode s).trans h.fcode
  tracks := tracks_ports (tracks_padFirst h.tracks h.phase h.run hf)

theorem Finalising.dispatched_lengthBlock (h : Finalising msg s) (hf : s.fst = .spillDispatched) :
    Dispatched msg (noResponse (dispatchLengthBlock s)) where
  rst := h.rst
  run := rfl
  i := rfl
  working := rfl
  phase := .inr h.phase
  fcode := h.fcode
  tracks := tracks_ports (tracks_dispatchLengthBlock h.tracks h.phase h.run hf)

/-- PADSTEP2 ends the finalisation (R116). -/
theorem Finalising.digestedAfter_padLast (h : Finalising msg s) (hf : s.fst = .lengthDispatched)
    (hport : OnlyCommands s.port) : DigestedAfter 1 msg s := by
  have hstep : step s = .next (noResponse (padLast s)) :=
    hport.step_selected h.rst (selectedStep_padstep2 h.phase hf h.run)
  obtain ⟨-, hlenovf⟩ := h.tracks.length (.inr (.inl h.phase))
  obtain ⟨-, hH⟩ := h.tracks.finished h.phase h.run hf
  exact ⟨_, runSteps_one hstep, ⟨h.rst, h.run, rfl, h.fcode, hlenovf, hH⟩, rfl⟩

/-- The last block, and PADSTEP2. -/
theorem Dispatched.digestedAfter_lastBlock (h : Dispatched msg s) (hp : s.phase = .final)
    (hf : s.fst = .lengthDispatched) (hport : OnlyCommands s.port) : DigestedAfter 66 msg s := by
  obtain ⟨w, hrun, htracks⟩ := h.exists_blockDone hport
  exact ((h.finalising_blockDone hp htracks).digestedAfter_padLast hf hport).prepend hrun rfl

/-- PADSTEP1, the last block, and PADSTEP2. -/
theorem Finalising.digestedAfter_spilled (h : Finalising msg s) (hf : s.fst = .spillDispatched)
    (hport : OnlyCommands s.port) : DigestedAfter 67 msg s := by
  have hstep : step s = .next (noResponse (dispatchLengthBlock s)) :=
    hport.step_selected h.rst (selectedStep_padstep1 h.phase hf h.run)
  exact ((h.dispatched_lengthBlock hf).digestedAfter_lastBlock h.phase rfl hport).prepend (runSteps_one hstep) rfl

/-- The whole finalisation, with the length words in the block of the terminator or in one of their own (R160). -/
theorem Finalising.digestedAfter_finalSteps (h : Finalising msg s) (hf : s.fst = .terminatorPlaced)
    (hport : OnlyCommands s.port) : DigestedAfter (finalSteps msg.length) msg s := by
  have hstep : runSteps 1 s = .next (noResponse (padFirst s)) :=
    runSteps_one (hport.step_selected h.rst (selectedStep_padstep0 h.phase hf h.run))
  have hdisp := h.dispatched_padFirst hf
  have hkept : (noResponse (padFirst s)).port = s.port := padFirst_port s
  have hfinal : (noResponse (padFirst s)).phase = .final := (padFirst_phase s).trans h.phase
  have hquiet : OnlyCommands (noResponse (padFirst s)).port := by rw [hkept]; exact hport
  have hfill : (fillPointer s.bitlen).toNat = msg.length % 64 := by
    rw [(h.tracks.length (.inr (.inl h.phase))).1, fillPointer_of_length]
  rw [finalSteps]
  split
  case isTrue hfits =>
    have hfst : (noResponse (padFirst s)).fst = .lengthDispatched := by
      rw [padFirst_of_fits (by bv_omega)]
      rfl
    exact (hdisp.digestedAfter_lastBlock hfinal hfst hquiet).prepend hstep hkept
  case isFalse hspill =>
    have hfst : (noResponse (padFirst s)).fst = .spillDispatched := by
      rw [padFirst_of_spill (by bv_omega)]
      rfl
    obtain ⟨w, hrun, htracks⟩ := hdisp.exists_blockDone hquiet
    have hspilled : DigestedAfter 67 msg _ :=
      (hdisp.finalising_blockDone hfinal htracks).digestedAfter_spilled hfst hquiet
    exact (hspilled.prepend hrun rfl).prepend hstep hkept

/-- FINAL places the terminator, and finalisation begins (R113). -/
theorem Absorbed.finalising_placeTerminator (h : Absorbed msg s) : Finalising msg (placeTerminator s) :=
  ⟨h.rst, h.run, rfl, h.fcode, tracks_placeTerminator h.tracks h.phase h.run⟩

end Ending

/-- Settles O50: FINAL, then the steps of finalisation up to phase DONE. -/
theorem finalLeavesTheDigest : Obligations.FinalLeavesTheDigest := by
  intro s msg rest habs hport hn hpause
  have hstep : runSteps 1 s = .next (placeTerminator { s with port := rest }) :=
    runSteps_one (habs.step_command (i := .final) hport rfl rfl)
  obtain ⟨t, ht, hdig, hkept⟩ :=
    (habs.withPort rest).finalising_placeTerminator.digestedAfter_finalSteps rfl ⟨hn, hpause⟩
  have hready : cmdReady t = true := (cmdReady_iff t).2 ⟨hdig.run, by simp [hdig.phase], hdig.rst⟩
  exact ⟨t, (runSteps_add hstep _).trans ht, hdig.phase, hdig.digest, hdig.run, hdig.rst, hdig.fcode, hdig.lenovf,
    hready, hkept⟩

end Sys2Proof.Machine

/-! PROOFS. The statements of 41_compressor.md: the nonlinear functions and the indices of a round (R131, R132), the
ROUND steps and FEEDFWD (R134 to R139), and the compression of a block (R140, R141). -/

namespace Sys2Proof.Machine

/-! ## The compression of a block (R140, R141) -/

/-- Waiting for the engine loses no command of the HOST (R32). -/
theorem commandsOf_iterate_portAfterWait (moves : List HostMove) (k : Nat) :
    commandsOf (portAfterWait^[k] moves) = commandsOf moves := by
  induction k with
  | zero => rfl
  | succ k ih => rw [Function.iterate_succ_apply', commandsOf_portAfterWait, ih]

/-- Settles O46: by the state after the first `k` rounds, and by the state that FEEDFWD leaves. -/
theorem sixtyFiveStepsCompressTheBlock : Obligations.SixtyFiveStepsCompressTheBlock := by
  intro s hrst hrun hi hw hn
  constructor
  · intro k hk
    obtain ⟨rsp, hrounds⟩ := runSteps_rounds hrst hrun hi hn (show k ≤ 64 by omega)
    have hcount : (BitVec.ofNat 7 k).toNat = k := Nat.mod_eq_of_lt (by omega)
    exact ⟨_, hrounds, by simp [cmdReady, hrun], hrun, hcount⟩
  · obtain ⟨w, hlast⟩ : ∃ w, w = roundsFn s.M 64 s.H := ⟨_, rfl⟩
    exact ⟨_, runSteps_compression hrst hrun hi hw hn hlast, blockDone_H hlast _, bufByte_bufClear, rfl, rfl, rfl, rfl,
      rfl, rfl, rfl, hrst, rfl, commandsOf_iterate_portAfterWait s.port 65⟩

/-! ## The ROUND steps and FEEDFWD (R134 to R139) -/

section EngineSteps
variable {s : State}

/-- With `run` = 1 the step counter alone selects the step (R155). -/
theorem selectedStep_of_run (hrun : s.run = true) :
    selectedStep s =
      if s.i < 16 then some .roundF
      else if s.i < 32 then some .roundG
      else if s.i < 48 then some .roundH
      else if s.i < 64 then some .roundI
      else if s.i = 64 then some .feedfwd
      else none := by
  simp only [selectedStep, nextEngineStep, hrun, if_true]

/-- Whichever ROUND step the sequencer selects, it is the round of the reference (R134 to R138). -/
theorem exec_selected_round {j : Instr} (hrst : s.rst = false) (hrun : s.run = true) (hi : s.i < 64)
    (hs : selectedStep s = some j) :
    exec j s = .next { s with w := roundFn (roundIndex s.i) s.w s.M, i := s.i + 1, rsp := none } := by
  rw [exec_selected hrst hs]
  rcases selectedStep_cases hs with ⟨-, -, he⟩ | ⟨-, h64, -⟩ | ⟨hidle, -⟩ | ⟨hidle, -⟩ | ⟨hidle, -⟩
  · rw [he]
    rfl
  · bv_omega
  all_goals exact absurd (hrun.symm.trans hidle) (by decide)

theorem exec_feedfwd_last (hrst : s.rst = false) (hrun : s.run = true) (hi : s.i = 64) :
    exec .feedfwd s = .next (noResponse (feedForward s)) :=
  exec_selected hrst (by rw [selectedStep_of_run hrun, hi]; rfl)

end EngineSteps

/-- Settles O24: in each group of sixteen the sequencer selects its ROUND step, which is the round of R134. -/
theorem roundStepsApplyTheRoundFunction : Obligations.RoundStepsApplyTheRoundFunction := by
  intro s hrst hrun
  refine ⟨fun hF => ?groupF, fun hG hG' => ?groupG, fun hH hH' => ?groupH, fun hI hI' => ?groupI⟩
  all_goals refine exec_selected_round hrst hrun (by bv_omega) ?_
  all_goals rw [selectedStep_of_run hrun]
  case groupF => rw [if_pos hF]
  case groupG => rw [if_neg (by bv_omega), if_pos hG']
  case groupH => rw [if_neg (by bv_omega), if_neg (by bv_omega), if_pos hH']
  case groupI => rw [if_neg (by bv_omega), if_neg (by bv_omega), if_neg (by bv_omega), if_pos hI']

/-- Settles O25: with `run` = 0 the phase and `fst` alone decide what comes next. -/
theorem feedfwdAddsTheWorkingVariables : Obligations.FeedfwdAddsTheWorkingVariables := by
  intro s hrst hrun hi
  refine ⟨_, exec_feedfwd_last hrst hrun hi, BitVec.toNat_add .., BitVec.toNat_add .., BitVec.toNat_add ..,
    BitVec.toNat_add .., bufByte_bufClear, rfl, hi, rfl, fun hp => ?ready, fun hp => ?busy, fun hp hf => ?spilled,
    fun hp hf => ?last, rfl, rfl, rfl, rfl, rfl, rfl, rfl, rfl, rfl⟩
  case ready => exact (cmdReady_iff _).2 ⟨rfl, by simp [hp], hrst⟩
  case busy => simp [cmdReady, hp]
  case spilled => exact (decodeSeq_eq_ok_iff _ _).2 (selectedStep_padstep1 hp hf rfl)
  case last => exact (decodeSeq_eq_ok_iff _ _).2 (selectedStep_padstep2 hp hf rfl)

/-! ## The nonlinear functions (R131) -/

/-- The group of a round is its index divided by sixteen (R29). -/
theorem quartile_toNat (i : BitVec 6) : (quartile i).toNat = i.toNat / 16 := by
  have hi : i.toNat < 64 := i.isLt
  rw [quartile, BitVec.extractLsb'_toNat, Nat.shiftRight_eq_div_pow]
  omega

section Groups
variable {i : BitVec 6}

theorem nonlinear_groupF (h : i.toNat / 16 = 0) : nonlinear i = nonlinF := by
  funext b c d
  simp only [nonlinear, quartile_toNat, h, nonlinF]

theorem nonlinear_groupG (h : i.toNat / 16 = 1) : nonlinear i = nonlinG := by
  funext b c d
  simp only [nonlinear, quartile_toNat, h, nonlinG]

theorem nonlinear_groupH (h : i.toNat / 16 = 2) : nonlinear i = nonlinH := by
  funext b c d
  simp only [nonlinear, quartile_toNat, h, nonlinH]

theorem nonlinear_groupI (h : i.toNat / 16 = 3) : nonlinear i = nonlinI := by
  funext b c d
  simp only [nonlinear, quartile_toNat, h, nonlinI]

end Groups

section Bits
variable (b c d : Word) {n : Nat}

/-- Bit `n` of `b` chooses between `c` and `d`. -/
theorem getLsbD_nonlinF (hn : n < 32) :
    (nonlinF b c d).getLsbD n = bif b.getLsbD n then c.getLsbD n else d.getLsbD n := by
  rw [nonlinF, BitVec.getLsbD_or, BitVec.getLsbD_and, BitVec.getLsbD_and, BitVec.getLsbD_not, decide_eq_true hn]
  cases b.getLsbD n <;> simp

/-- The second function is the first with `d` as the choosing word. -/
theorem getLsbD_nonlinG (hn : n < 32) :
    (nonlinG b c d).getLsbD n = bif d.getLsbD n then b.getLsbD n else c.getLsbD n :=
  getLsbD_nonlinF d b c hn

theorem getLsbD_nonlinH : (nonlinH b c d).getLsbD n = (b.getLsbD n ^^ c.getLsbD n ^^ d.getLsbD n) := by
  rw [nonlinH, BitVec.getLsbD_xor, BitVec.getLsbD_xor]

theorem getLsbD_nonlinI (hn : n < 32) :
    (nonlinI b c d).getLsbD n = (c.getLsbD n ^^ (b.getLsbD n || !d.getLsbD n)) := by
  rw [nonlinI, BitVec.getLsbD_xor, BitVec.getLsbD_or, BitVec.getLsbD_not, decide_eq_true hn, Bool.true_and]

end Bits

/-- Settles O56: each group's function, and that function bit by bit. -/
theorem nonlinearFunctionsBitByBit : Obligations.NonlinearFunctionsBitByBit := by
  intro i b c d n hn
  have hi : i.toNat < 64 := i.isLt
  refine ⟨fun hF => ?_, fun hG hG' => ?_, fun hH hH' => ?_, fun hI => ?_⟩
  · rw [nonlinear_groupF (by omega), getLsbD_nonlinF b c d hn]
  · rw [nonlinear_groupG (by omega), getLsbD_nonlinG b c d hn]
  · rw [nonlinear_groupH (by omega), getLsbD_nonlinH]
  · rw [nonlinear_groupI (by omega), getLsbD_nonlinI b c d hn]

/-! ## The message words and the rotate amounts of a group (R132, R61) -/

/-- `g(i)` as the residue that R132 states for the group of `i`. -/
theorem messageIndex_val (i : BitVec 6) :
    (i.toNat / 16 = 0 ∧ (messageIndex i).val = i.toNat % 16) ∨
    (i.toNat / 16 = 1 ∧ (messageIndex i).val = (5 * i.toNat + 1) % 16) ∨
    (i.toNat / 16 = 2 ∧ (messageIndex i).val = (3 * i.toNat + 5) % 16) ∨
    (i.toNat / 16 = 3 ∧ (messageIndex i).val = 7 * i.toNat % 16) := by
  have hi : i.toNat < 64 := i.isLt
  have hgroup : i.toNat / 16 = 0 ∨ i.toNat / 16 = 1 ∨ i.toNat / 16 = 2 ∨ i.toNat / 16 = 3 := by omega
  rcases hgroup with h | h | h | h <;> simp [messageIndex, quartile_toNat, h]

/-- No word is read twice in a group: the factors 1, 5, 3 and 7 of R132 are odd, so they can be cancelled modulo 16. -/
theorem messageIndex_injective_of_group {i i' : BitVec 6} (hgroup : i.toNat / 16 = i'.toNat / 16)
    (hword : messageIndex i = messageIndex i') : i = i' := by
  have hval : (messageIndex i).val = (messageIndex i').val := congrArg Fin.val hword
  have hother := messageIndex_val i'
  apply BitVec.eq_of_toNat_eq
  rcases messageIndex_val i with ⟨hF, hg⟩ | ⟨hG, hg⟩ | ⟨hH, hg⟩ | ⟨hI, hg⟩ <;> omega

/-- Round `n` of a group of sixteen. -/
def roundOfGroup (group : Fin 4) (n : Fin 16) : BitVec 6 := BitVec.ofNat 6 (16 * group.val + n.val)

theorem roundOfGroup_toNat (group : Fin 4) (n : Fin 16) :
    (roundOfGroup group n).toNat = 16 * group.val + n.val := by
  rw [roundOfGroup, BitVec.toNat_ofNat]
  omega

/-- Every word is read in a group, since its sixteen rounds read sixteen different ones. -/
theorem exists_messageIndex_eq (group : Fin 4) (word : Fin 16) :
    ∃ i : BitVec 6, i.toNat / 16 = group.val ∧ messageIndex i = word := by
  have hgroup : ∀ n, (roundOfGroup group n).toNat / 16 = group.val := fun n => by
    rw [roundOfGroup_toNat]
    omega
  have hinj : Function.Injective fun n => messageIndex (roundOfGroup group n) := fun n n' hword => by
    have hround := messageIndex_injective_of_group ((hgroup n).trans (hgroup n').symm) hword
    have hnat := congrArg BitVec.toNat hround
    rw [roundOfGroup_toNat, roundOfGroup_toNat] at hnat
    omega
  obtain ⟨n, hn⟩ := Finite.surjective_of_injective hinj word
  exact ⟨roundOfGroup group n, hgroup n, hn⟩

/-- The rotate amounts of a group repeat its first four (R61). -/
theorem sAt_eq_firstFour : ∀ i : BitVec 6,
    sAt i = sAt (BitVec.ofNat 6 (16 * (i.toNat / 16) + i.toNat % 4)) := by
  decide

theorem sAt_bounds : ∀ i : BitVec 6, 4 ≤ (sAt i).toNat ∧ (sAt i).toNat ≤ 23 := by
  decide

/-- Settles O57: `g` by cancellation modulo 16 and counting, the rotate amounts by the table. -/
theorem roundGroupsReadEveryWordOnce : Obligations.RoundGroupsReadEveryWordOnce := by
  refine ⟨exists_messageIndex_eq, fun _ _ => messageIndex_injective_of_group, fun i i' hgroup hfour => ?_, sAt_bounds⟩
  rw [sAt_eq_firstFour i, sAt_eq_firstFour i', hgroup, hfour]

end Sys2Proof.Machine

/-! PROOFS. The statements of 42_scheduler.md: INIT (R151), the transitions of `phase` (R154), the choice of the engine
step (R155), the bound on busy periods (R160), and the digest computation from INIT to the last character (R157, R158). -/

namespace Sys2Proof.Machine

/-! ## One message from INIT to phase DONE (R151, R157) -/

section Message
variable {s : State}

/-- Between messages the engine waits for a command: R38 (b) allows no compression there. -/
theorem cmdReady_between_messages (hinv : Inv s) (hrst : s.rst = false) (hp : s.phase = .idle ∨ s.phase = .done) :
    cmdReady s = true := by
  obtain ⟨-, hrun, -, -⟩ := hinv
  have hrun0 : s.run = false := by rcases hp with hp | hp <;> simpa [hp] using hrun
  have hfinal : s.phase ≠ .final := by rcases hp with hp | hp <;> simp [hp]
  exact (cmdReady_iff s).2 ⟨hrun0, hfinal, hrst⟩

/-- INIT leaves the empty message behind (R25, R151). -/
theorem absorbed_startMessage (hrst : s.rst = false) (hrun : s.run = false) (hcode : s.fcode = .none) :
    Absorbed [] (startMessage s) :=
  absorbed_of_tracks (tracks_startMessage hrun) hrst rfl rfl hrun hcode

/-- Settles O48: INIT executes, and R38 (c) says that no fault is latched. -/
theorem initBeginsTheEmptyMessage : Obligations.InitBeginsTheEmptyMessage := by
  intro s rest hinv hc hp hport
  obtain ⟨-, -, hcode, -⟩ := hinv
  obtain ⟨hrun, -, hrst⟩ := (cmdReady_iff s).1 hc
  have hfault : s.phase ≠ .fault := by rcases hp with hp | hp <;> simp [hp]
  have hnone : s.fcode = .none := not_not.1 (mt hcode.1 hfault)
  have hstep : step s = .next (startMessage { s with port := rest }) := by
    rw [step_cmd_ready hport hc]
    exact acceptWord_executes (i := .init) hc rfl (by simpa [allowedPhase] using hp)
  exact ⟨_, hstep, absorbed_startMessage hrst hrun hnone, rfl⟩

theorem onlyCommands_nil : OnlyCommands [] := by simp [OnlyCommands, NoReset]

theorem OnlyCommands.cons_cmd {cmd : BitVec 12} {rest : List HostMove} (h : OnlyCommands rest) :
    OnlyCommands (.cmd cmd :: rest) :=
  ⟨noReset_cons_cmd h.1, by simpa using h.2⟩

theorem absorbBytes_append_singleton (msg : List Byte) (b : Byte) (rest : List HostMove) :
    absorbBytes (msg ++ [b]) ++ rest = absorbBytes msg ++ .cmd (0x2#4 ++ b) :: rest := by
  rw [absorbBytes, List.map_append, List.append_assoc]
  rfl

/-- The bytes of a message, absorbed one by one: a step each, and 65 more for each block they fill (R157). -/
theorem Absorbed.runSteps_absorbBytes (h : Absorbed [] s) {msg : List Byte} {rest : List HostMove}
    (hport : s.port = absorbBytes msg ++ rest) (hrest : OnlyCommands rest) :
    ∃ t, runSteps (msg.length + 65 * (msg.length / 64)) s = .next t ∧ Absorbed msg t ∧ t.port = rest := by
  induction msg using List.reverseRecOn generalizing rest with
  | nil => exact ⟨s, rfl, h, hport⟩
  | append_singleton msg b ih =>
    rw [absorbBytes_append_singleton] at hport
    obtain ⟨u, hu, habs, huport⟩ := ih hport hrest.cons_cmd
    obtain ⟨t, ht, habs', htport⟩ := absorbExtendsTheMessage u msg b rest habs huport hrest.1 hrest.2
    refine ⟨t, ?_, habs', htport⟩
    have hcount : (msg ++ [b]).length + 65 * ((msg ++ [b]).length / 64) =
        (msg.length + 65 * (msg.length / 64)) + (1 + if msg.length % 64 = 63 then 65 else 0) := by
      rw [List.length_append, List.length_singleton]
      split <;> omega
    rw [hcount, runSteps_add hu, ht]

/-- The digest script from INIT to phase DONE, with the HOST's other commands still to come (R157, R160). -/
theorem runSteps_digestScript {msg : List Byte} {rest : List HostMove} (hinv : Inv s) (hrst : s.rst = false)
    (hp : s.phase = .idle ∨ s.phase = .done) (hport : s.port = digestScript msg ++ rest) (hrest : OnlyCommands rest) :
    ∃ t, runSteps (2 + msg.length + 65 * (msg.length / 64) + finalSteps msg.length) s = .next t ∧
      Digested msg t ∧ t.port = rest := by
  have hscript : digestScript msg ++ rest = .cmd 0x100 :: (absorbBytes msg ++ .cmd 0x300 :: rest) := by
    rw [digestScript, List.cons_append, List.append_assoc]
    rfl
  obtain ⟨u, hu, hempty, huport⟩ := initBeginsTheEmptyMessage s _ hinv (cmdReady_between_messages hinv hrst hp) hp
    (hport.trans hscript)
  obtain ⟨v, hv, habs, hvport⟩ := hempty.runSteps_absorbBytes huport hrest.cons_cmd
  obtain ⟨t, ht, hdone, hH, hrun, hrst', hcode, hlenovf, -, htport⟩ :=
    finalLeavesTheDigest v msg rest habs hvport hrest.1 hrest.2
  refine ⟨t, ?_, ⟨hrst', hrun, hdone, hcode, hlenovf, hH⟩, htport⟩
  have hcount : 2 + msg.length + 65 * (msg.length / 64) + finalSteps msg.length =
      1 + ((msg.length + 65 * (msg.length / 64)) + (1 + finalSteps msg.length)) := by omega
  rw [hcount, runSteps_add (runSteps_one hu), runSteps_add hv, ht]

theorem Digested.ready {msg : List Byte} (h : Digested msg s) : cmdReady s = true :=
  (cmdReady_iff s).2 ⟨h.run, by simp [h.phase], h.rst⟩

/-- STATUS in phase DONE shows `lenovf` alone (R31). -/
theorem Digested.statusByte_eq {msg : List Byte} (h : Digested msg s) :
    statusByte s = if msg.length < 2 ^ 29 then 0x03 else 0x0b := by
  rw [statusByte, h.phase, h.fcode, h.lenovf]
  split
  case isTrue hlt => rw [decide_eq_false (Nat.not_le.2 hlt)]; rfl
  case isFalse hge => rw [decide_eq_true (Nat.not_lt.1 hge)]; rfl

end Message

/-- Settles O51: the digest script with nothing after it. -/
theorem messageToDigestEndToEnd : Obligations.MessageToDigestEndToEnd := by
  intro s msg hinv hrst hp hport
  obtain ⟨t, ht, hdig, htport⟩ := runSteps_digestScript (rest := []) hinv hrst hp (by simpa using hport) onlyCommands_nil
  exact ⟨t, ht, hdig.phase, hdig.digest, hdig.fcode, hdig.lenovf, hdig.statusByte_eq, hdig.ready, htport⟩

/-! ## The transaction compute_digest (R158) -/

section ReadOut
variable {msg : List Byte} {s : State}

/-- RDHEX in phase DONE: the character, and nothing else changed (R173). -/
theorem Digested.step_rdhex (h : Digested msg s) {k : Byte} (hk : k ≤ 0x1f) {rest : List HostMove}
    (hport : s.port = line 0x4 k :: rest) :
    step s = .next (respond (hexChar (md5State msg) (hexIndex k)) { s with port := rest }) := by
  rw [step_cmd_ready hport h.ready, ← h.digest]
  exact acceptWord_executes (s := { s with port := rest }) h.ready (decodeCmd_rdhex hk)
    (by simp [allowedPhase, h.phase])

/-- A response and the HOST's moves leave the digest in place. -/
theorem Digested.after_response (h : Digested msg s) (v : Byte) (moves : List HostMove) :
    Digested msg (respond v { s with port := moves }) :=
  ⟨h.rst, h.run, h.phase, h.fcode, h.lenovf, h.digest⟩

theorem drop_rdhexAll {k : Nat} (hk : k < 32) :
    rdhexAll.drop k = line 0x4 (BitVec.ofNat 8 k) :: rdhexAll.drop (k + 1) := by
  rw [List.drop_eq_getElem_cons (by simpa using hk)]
  simp [rdhexAll]

theorem onlyCommands_rdhexAll : OnlyCommands rdhexAll := by
  simp [OnlyCommands, NoReset, rdhexAll, line]

/-- The `k`-th RDHEX of RDHEXALL, in place among the HOST's moves. -/
theorem Digested.step_rdhexAll (h : Digested msg s) {k : Nat} (hk : k < 32) (hport : s.port = rdhexAll.drop k) :
    step s = .next (respond (hexChar (md5State msg) (hexIndex (BitVec.ofNat 8 k)))
      { s with port := rdhexAll.drop (k + 1) }) :=
  h.step_rdhex (by bv_omega) (hport.trans (drop_rdhexAll hk))

/-- The first `k` commands of RDHEXALL take a step each and keep the digest. -/
theorem Digested.runSteps_rdhexAll (h : Digested msg s) (hport : s.port = rdhexAll) {k : Nat} (hk : k ≤ 32) :
    ∃ t, runSteps k s = .next t ∧ Digested msg t ∧ t.port = rdhexAll.drop k := by
  induction k with
  | zero => exact ⟨s, rfl, h, hport⟩
  | succ k ih =>
    obtain ⟨t, ht, hdig, htport⟩ := ih (by omega)
    exact ⟨_, runSteps_snoc ht (hdig.step_rdhexAll hk htport), hdig.after_response _ _, rfl⟩

/-- Character `k` of the digest string is the one that RDHEX `k` reads (R156, R171). -/
theorem getD_md5Hex (msg : List Byte) {k : Nat} (hk : k < 32) :
    (md5Hex msg).getD k 0 = hexChar (md5State msg) (hexIndex (BitVec.ofNat 8 k)) := by
  have hindex : hexIndex (BitVec.ofNat 8 k) = BitVec.ofFin ⟨k, hk⟩ := by
    apply BitVec.eq_of_toNat_eq
    simp [hexIndex, BitVec.extractLsb'_toNat]
    omega
  rw [hindex, List.getD_eq_getElem _ _ (by rw [md5Hex, List.length_ofFn]; exact hk)]
  simp only [md5Hex, List.getElem_ofFn]

end ReadOut

/-- Settles O52: the digest script, then the RDHEX commands one by one. -/
theorem computeDigestAnswersTheString : Obligations.ComputeDigestAnswersTheString := by
  intro s msg hinv hrst hp hport k hk
  obtain ⟨u, hu, hdone, huport⟩ := runSteps_digestScript hinv hrst hp hport onlyCommands_rdhexAll
  obtain ⟨v, hv, hdig, hvport⟩ := hdone.runSteps_rdhexAll huport (Nat.le_of_lt hk)
  have hread := runSteps_snoc hv (hdig.step_rdhexAll hk hvport)
  exact ⟨_, (runSteps_add hu _).trans hread, by rw [getD_md5Hex msg hk]; rfl, hdig.phase, hdig.digest⟩

/-! ## Busy periods end (R160) -/

/-- The engine steps that finalisation takes at most from each stage on: PADSTEP0, then PADSTEP1, each with the 65
steps of the block it dispatches, then PADSTEP2 (R114 to R116). -/
def stageSteps : FinStage → Nat
  | .terminatorPlaced => 133
  | .spillDispatched => 67
  | .lengthDispatched => 1

theorem stageSteps_le (f : FinStage) : stageSteps f ≤ 133 := by
  cases f <;> decide

theorem stageSteps_le_of_dispatched {f : FinStage} (hf : f ≠ .terminatorPlaced) : stageSteps f ≤ 67 := by
  cases f with
  | terminatorPlaced => exact absurd rfl hf
  | spillDispatched | lengthDispatched => decide

/-- The engine steps to `cmd_ready` = 1 at most: those of the compression in progress, and those of finalisation. -/
def busySteps (s : State) : Nat :=
  (if s.run then 65 - s.i.toNat else 0) + if s.phase = .final then stageSteps s.fst else 0

section Busy
variable {s : State}

/-- With `run` = 1 in phase FINAL the stage of the terminator is over, so 65 steps and 67 are the most (R115). -/
theorem busySteps_le (hm : MessageInv s) : busySteps s ≤ 133 := by
  have hall := stageSteps_le s.fst
  by_cases hp : s.phase = .final
  · obtain ⟨hstage, -, -, -⟩ := (messageInv_final_iff hp).1 hm
    cases hrun : s.run
    · simpa [busySteps, hrun, hp] using hall
    · have hlate := stageSteps_le_of_dispatched (hstage hrun)
      simp only [busySteps, hrun, hp, if_true]
      omega
  · cases hrun : s.run
    · simp [busySteps, hrun, hp]
    · simp only [busySteps, hrun, hp, if_true, if_false]
      omega

/-- Every engine step brings the end of the busy period nearer. -/
theorem busySteps_engineEffect {j : Instr} (hs : selectedStep s = some j) :
    busySteps (engineEffect j s) < busySteps s := by
  rcases selectedStep_cases hs with ⟨hrun, hi, he⟩ | ⟨hrun, hi, rfl⟩ | ⟨hrun, hp, hf, rfl⟩ | ⟨hrun, hp, hf, rfl⟩ |
    ⟨hrun, hp, hf, rfl⟩
  · have hround : 65 - (s.i + 1).toNat < 65 - s.i.toNat := by bv_omega
    rw [he]
    simpa [busySteps, hrun] using hround
  · have hleft : 0 < if s.run then 65 - s.i.toNat else 0 := by simp [hrun, hi]
    exact Nat.add_lt_add_right hleft _
  · by_cases hspill : 56#6 ≤ fillPointer s.bitlen
    · simp [busySteps, stageSteps, engineEffect, padFirst_of_spill hspill, loadw, hrun, hp, hf]
    · simp [busySteps, stageSteps, engineEffect, padFirst_of_fits (BitVec.not_le.1 hspill), hrun, hp, hf]
  · simp [busySteps, stageSteps, engineEffect, hrun, hp, hf]
  · simp [busySteps, stageSteps, engineEffect, hrun, hp, hf]

/-- A busy engine has a step to take: R38 (a) keeps `i` in range. -/
theorem selectedStep_of_busy (hinv : Inv s) (hrst : s.rst = false) (hc : cmdReady s = false) :
    ∃ j, selectedStep s = some j := by
  cases hs : selectedStep s with
  | some j => exact ⟨j, rfl⟩
  | none =>
    obtain ⟨hi, -, -, -⟩ := hinv
    exact absurd (selectedStep_eq_none hs hc hrst).2 (BitVec.not_lt.2 hi)

/-- One step of a busy engine, whatever the HOST does short of reset. -/
theorem step_busy (hinv : Inv s) (hrst : s.rst = false) (hn : NoReset s.port) (hc : cmdReady s = false) :
    ∃ t, step s = .next t ∧ Inv t ∧ t.rst = false ∧ NoReset t.port ∧ busySteps t < busySteps s := by
  obtain ⟨j, hs⟩ := selectedStep_of_busy hinv hrst hc
  have hstep := step_selected hrst hs (noResetNow_of_noReset hn)
  rw [engineEffect_port] at hstep
  exact ⟨_, hstep, everyStepKeepsTheInvariant _ _ hinv hstep, (engineEffect_rst j s).trans hrst,
    noReset_portAfterWait hn, busySteps_engineEffect hs⟩

/-- The busy period of `s` is over within `n` steps, all of them the engine's own (R160). -/
def ReadyWithin (n : Nat) (s : State) : Prop :=
  ∃ k, k ≤ n ∧ (∀ j, j < k → ∃ u, runSteps j s = .next u ∧ cmdReady u = false) ∧
    ∃ t, runSteps k s = .next t ∧ cmdReady t = true

theorem readyWithin_of_ready (hc : cmdReady s = true) (n : Nat) : ReadyWithin n s :=
  ⟨0, Nat.zero_le n, fun _ hj => absurd hj (Nat.not_lt_zero _), s, rfl, hc⟩

theorem ReadyWithin.mono {m n : Nat} (h : ReadyWithin m s) (hmn : m ≤ n) : ReadyWithin n s := by
  obtain ⟨k, hk, hrest⟩ := h
  exact ⟨k, hk.trans hmn, hrest⟩

/-- A step of the busy engine put before what is left of its busy period. -/
theorem ReadyWithin.after_step {n : Nat} {t : State} (h : ReadyWithin n t) (hc : cmdReady s = false)
    (hstep : step s = .next t) : ReadyWithin (n + 1) s := by
  obtain ⟨k, hk, hbusy, u, hu, hready⟩ := h
  refine ⟨k + 1, Nat.succ_le_succ hk, fun j hj => ?_, u, by rw [runSteps_succ hstep, hu], hready⟩
  cases j with
  | zero => exact ⟨s, rfl, hc⟩
  | succ j =>
    rw [runSteps_succ hstep]
    exact hbusy j (Nat.lt_of_succ_lt_succ hj)

theorem readyWithin_busySteps (hinv : Inv s) (hrst : s.rst = false) (hn : NoReset s.port) :
    ReadyWithin (busySteps s) s := by
  induction hleft : busySteps s using Nat.strongRecOn generalizing s with
  | ind n ih =>
    cases hc : cmdReady s with
    | true => exact readyWithin_of_ready hc n
    | false =>
      obtain ⟨t, hstep, hinv', hrst', hn', hlt⟩ := step_busy hinv hrst hn hc
      rw [hleft] at hlt
      exact ((ih (busySteps t) hlt hinv' hrst' hn' rfl).after_step hc hstep).mono hlt

end Busy

/-- Settles O47: each engine step lowers the count of the steps left, which begins at 133 or below. -/
theorem busyPeriodsEndWithin133Steps : Obligations.BusyPeriodsEndWithin133Steps :=
  fun _ hinv hm hrst hn => (readyWithin_busySteps hinv hrst hn).mono (busySteps_le hm)

/-! ## Which engine step is selected (R155) -/

/-- Settles O8: where the engine is busy, by `run`, then by the ranges of `i` or by `fst`. -/
theorem exactlyOneEngineStepWhenBusy : Obligations.ExactlyOneEngineStepWhenBusy := by
  intro s hinv hrst
  simp only [decodeSeq_eq_ok_iff, ne_eq]
  refine ⟨fun hc j hs => ?ready, fun hc => ?busy⟩
  case ready => simp [cmdReady_of_selectedStep hs] at hc
  case busy =>
    obtain ⟨j, hs⟩ := selectedStep_of_busy hinv hrst hc
    cases hrun : s.run
    case false =>
      rcases selectedStep_cases hs with ⟨hr, -⟩ | ⟨hr, -⟩ | ⟨-, hp, hf, -⟩ | ⟨-, hp, hf, -⟩ | ⟨-, hp, hf, -⟩
      · simp [hrun] at hr
      · simp [hrun] at hr
      · simp [hp, hf, selectedStep_padstep0 hp hf hrun]
      · simp [hp, hf, selectedStep_padstep1 hp hf hrun]
      · simp [hp, hf, selectedStep_padstep2 hp hf hrun]
    case true =>
      rw [selectedStep_of_run hrun] at hs ⊢
      split_ifs at hs ⊢ with hF hG hH hI hL
      · exact .inl ⟨rfl, hF, rfl⟩
      · exact .inr (.inl ⟨rfl, BitVec.not_lt.1 hF, hG, rfl⟩)
      · exact .inr (.inr (.inl ⟨rfl, BitVec.not_lt.1 hG, hH, rfl⟩))
      · exact .inr (.inr (.inr (.inl ⟨rfl, BitVec.not_lt.1 hH, hI, rfl⟩)))
      · exact .inr (.inr (.inr (.inr (.inl ⟨rfl, hL, rfl⟩))))

/-- Settles O11: with nothing to transfer the ready engine waits. -/
theorem idleEngineHoldsItsState : Obligations.IdleEngineHoldsItsState := by
  intro s rest hc hport
  rcases hport with hport | ⟨hport, rfl⟩
  · rw [step_pause hport, withoutCommand_held (by exact hc)]
    rfl
  · rw [step_nil hport, withoutCommand_held hc, ← hport]
    rfl

/-! ## INIT (R151) -/

/-- Settles O14: the effect of INIT, field by field. -/
theorem initStartsAMessage : Obligations.InitStartsAMessage := by
  intro s hc hp
  have hexec : exec .init s = .next (startMessage s) :=
    exec_command_executes rfl rfl hc (by simpa [allowedPhase] using hp)
  exact ⟨startMessage s, hexec, rfl, rfl, rfl, rfl, bufByte_bufClear, rfl, rfl, rfl, rfl, rfl, rfl, rfl, rfl, rfl, rfl,
    rfl, rfl⟩

/-! ## The transitions of `phase` (R154) -/

/-- The changes of `phase` by an accepted word: INIT, FINAL, and fault entry (R154). -/
def WordMovesPhase (cmd : BitVec 12) (p q : Phase) : Prop :=
  (p = .idle ∧ q = .absorb ∧ cmd = 0x100) ∨ (p = .done ∧ q = .absorb ∧ cmd = 0x100) ∨
  (p = .absorb ∧ q = .final ∧ cmd = 0x300) ∨
  ((p = .idle ∨ p = .absorb ∨ p = .done) ∧ q = .fault ∧ cmd ≠ 0x600)

theorem wordMovesPhase_fault {cmd : BitVec 12} {p : Phase} (hfinal : p ≠ .final) (hfault : p ≠ .fault)
    (hcmd : cmd ≠ 0x600) : WordMovesPhase cmd p .fault := by
  refine .inr (.inr (.inr ⟨?_, rfl, hcmd⟩))
  cases p <;> simp at hfinal hfault ⊢

section Phase
variable {s t : State}

/-- A word that executes changes `phase` only if it is INIT or FINAL. -/
theorem commandEffect_phase_cases {cmd : BitVec 12} {i : Instr} (hd : decodeCmd cmd = .ok i)
    (ha : allowedPhase i s.phase = true) :
    (commandEffect i s).phase = s.phase ∨ WordMovesPhase cmd s.phase (commandEffect i s).phase := by
  rcases decodeCmd_word hd with ⟨rfl, rfl⟩ | ⟨b, rfl, -⟩ | ⟨rfl, rfl⟩ | ⟨k, rfl, -⟩ | ⟨j, rfl, -⟩ | ⟨rfl, -⟩
  · have hp : s.phase = .idle ∨ s.phase = .done := by simpa [allowedPhase] using ha
    rcases hp with hp | hp
    · exact .inr (.inl ⟨hp, rfl, rfl⟩)
    · exact .inr (.inr (.inl ⟨hp, rfl, rfl⟩))
  · exact .inl (absorbByte_phase s b)
  · have hp : s.phase = .absorb := by simpa [allowedPhase] using ha
    exact .inr (.inr (.inr (.inl ⟨hp, rfl, rfl⟩)))
  · exact .inl rfl
  · exact .inl rfl
  · exact .inl rfl

theorem acceptWord_phase_cases {cmd : BitVec 12} (hc : cmdReady s = true) (h : acceptWord cmd s = .next t) :
    t.phase = s.phase ∨ WordMovesPhase cmd s.phase t.phase := by
  obtain ⟨-, hfinal, -⟩ := (cmdReady_iff s).1 hc
  rcases acceptWord_cases h with ⟨-, -, rfl⟩ | ⟨hf, hl, rfl⟩ | ⟨i, hf, hd, ha, rfl⟩ | ⟨i, hd, ha, rfl⟩
  · exact .inl (respondZeroIf_phase s _)
  · have hcmd : cmd ≠ 0x600 := by
      rintro rfl
      cases hl
    rw [raiseFault_eq]
    exact .inr (wordMovesPhase_fault hfinal hf hcmd)
  · have hcmd : cmd ≠ 0x600 := by
      rintro rfl
      cases hd
      simp [allowedPhase, hfinal] at ha
    rw [raiseFault_eq]
    exact .inr (wordMovesPhase_fault hfinal hf hcmd)
  · exact commandEffect_phase_cases hd ha

/-- PADSTEP2 alone of the engine steps changes `phase`. -/
theorem engineEffect_phase {j : Instr} (hj : j ≠ .padstep2) (s : State) : (engineEffect j s).phase = s.phase := by
  cases j <;> simp [engineEffect] at hj ⊢

theorem phase_of_padstep2 (hs : selectedStep s = some .padstep2) : s.phase = .final := by
  cases hrun : s.run
  · by_contra hp
    simp [selectedStep, nextEngineStep, hrun, hp] at hs
  · rw [selectedStep_of_run hrun] at hs
    split_ifs at hs <;> cases hs

/-- No word moves the reset input. -/
theorem acceptWord_rst {cmd : BitVec 12} (h : acceptWord cmd s = .next t) : t.rst = s.rst := by
  rcases acceptWord_cases h with ⟨-, -, rfl⟩ | ⟨-, -, rfl⟩ | ⟨i, -, -, -, rfl⟩ | ⟨i, hd, -, rfl⟩
  · rw [respondZeroIf_eq]
  · rw [raiseFault_eq]
  · rw [raiseFault_eq]
  · cases i <;> simp [commandEffect]

/-- What a step is with reset applied before or after it: one under reset, or the release (R230). -/
theorem step_cases_reset (h : step s = .next t) (hr : s.rst = true ∨ t.rst = true) :
    (∃ moves, t = underReset { s with port := moves }) ∨
      (s.rst = true ∧ ∃ moves, t = releaseReset { s with port := moves }) := by
  have hno : s.rst = false → t.rst = false → False := fun hs ht => by
    rcases hr with hr | hr
    · simp [hs] at hr
    · simp [ht] at hr
  rcases step_cases h with ⟨rest, -, ht⟩ | ⟨rest, -, ht⟩ | ⟨cmd, rest, -, hc, hw⟩ | ⟨-, -, ht⟩ | ⟨hc, -, ht⟩ |
    ⟨j, hrst, -, -, -, ht⟩
  · exact .inl ⟨rest, ht⟩
  · refine .inr ⟨hr.resolve_right ?_, rest, ht⟩
    rw [ht, releaseReset_rst]
    decide
  · obtain ⟨-, -, hrst⟩ := (cmdReady_iff s).1 hc
    exact (hno hrst ((acceptWord_rst hw).trans hrst)).elim
  · exact .inl ⟨_, ht⟩
  · obtain ⟨-, -, hrst⟩ := (cmdReady_iff s).1 hc
    exact (hno hrst (by rw [ht]; exact hrst)).elim
  · exact (hno hrst (by rw [ht]; simpa using hrst)).elim

/-- Away from reset, a step that changes `phase` accepts a word or is PADSTEP2. -/
theorem step_phase_cases (h : step s = .next t) (hrs : s.rst = false) (hrt : t.rst = false)
    (hne : s.phase ≠ t.phase) :
    (∃ cmd rest, s.port = .cmd cmd :: rest ∧ cmdReady s = true ∧ WordMovesPhase cmd s.phase t.phase) ∨
      (cmdReady s = false ∧ selectedStep s = some .padstep2 ∧ t.phase = .done) := by
  rcases step_cases h with ⟨rest, -, rfl⟩ | ⟨rest, -, rfl⟩ | ⟨cmd, rest, hport, hc, hw⟩ | ⟨hr, -, -⟩ | ⟨-, -, rfl⟩ |
    ⟨j, -, hc, -, hs, rfl⟩
  · simp at hrt
  · rw [releaseReset_of_released (by exact hrs)] at hne
    exact absurd rfl hne
  · rcases acceptWord_phase_cases (by exact hc) hw with hkept | hmoves
    · exact absurd hkept.symm hne
    · exact .inl ⟨cmd, rest, hport, hc, hmoves⟩
  · simp [hrs] at hr
  · exact absurd rfl hne
  · by_cases hj : j = .padstep2
    · subst hj
      exact .inr ⟨hc, hs, rfl⟩
    · exact absurd (engineEffect_phase hj { s with port := portAfterWait s.port }).symm hne

end Phase

/-- Settles O31: away from reset by the word accepted or by PADSTEP2, under reset by what reset does to `phase`. -/
theorem phaseTransitionsAndTheirCauses : Obligations.PhaseTransitionsAndTheirCauses := by
  intro s t h
  refine ⟨fun hrs hrt hne => ?moves, fun hr => ?underReset, fun hrs hrt => ?release⟩
  case moves =>
    rcases step_phase_cases h hrs hrt hne with hword | ⟨hc, hs, hdone⟩
    · exact .inl hword
    · exact .inr ⟨hc, phase_of_padstep2 hs, hdone, (decodeSeq_eq_ok_iff s _).2 hs⟩
  case underReset =>
    rcases step_cases_reset h hr with ⟨moves, rfl⟩ | ⟨hrs, moves, rfl⟩
    · exact underReset_phase { s with port := moves }
    · rw [releaseReset_of_applied (by exact hrs)]
      exact .inr rfl
  case release =>
    rcases step_cases_reset h (.inl hrs) with ⟨moves, rfl⟩ | ⟨-, moves, rfl⟩
    · simp at hrt
    · rw [releaseReset_of_applied (by exact hrs)]
      rfl

end Sys2Proof.Machine

/-! PROOFS. The statements of 43_formatter.md: the digest bytes and characters that RDDIG and RDHEX respond with
(R170 to R173), the operands out of range (R202), and the agreement of the two reads with the digest (R174). -/

namespace Sys2Proof.Machine

/-! ## The indices of a read (R82) -/

theorem digIndex_toNat {j : Byte} (h : j ≤ 0x0f) : (digIndex j).toNat = j.toNat := by
  rw [digIndex, BitVec.extractLsb'_toNat, Nat.shiftRight_zero]
  bv_omega

theorem hexIndex_toNat {k : Byte} (h : k ≤ 0x1f) : (hexIndex k).toNat = k.toNat := by
  rw [hexIndex, BitVec.extractLsb'_toNat, Nat.shiftRight_zero]
  bv_omega

/-- Character `k` belongs to digest byte `k div 2` (R171). -/
theorem byteIndex_toNat (k : BitVec 5) : (k.extractLsb' 1 4).toNat = k.toNat / 2 := by
  rw [BitVec.extractLsb'_toNat, Nat.shiftRight_eq_div_pow]
  omega

/-! ## Digest bytes and characters (R170, R171) -/

theorem quadWord_eq_getD (x : Quad) {n : Nat} (h : n < 4) : quadWord x n = [x.a, x.b, x.c, x.d].getD n 0 := by
  match n, h with
  | 0, _ => rfl
  | 1, _ => rfl
  | 2, _ => rfl
  | 3, _ => rfl

theorem digestByte_eq_extract (x : Quad) (j : BitVec 4) :
    digestByte x j = ([x.a, x.b, x.c, x.d].getD (j.toNat / 4) 0).extractLsb' (8 * (j.toNat % 4)) 8 := by
  rw [digestByte, byteOfWord, quadWord_eq_getD x (by omega)]

theorem digestByte_toNat (x : Quad) (j : BitVec 4) :
    (digestByte x j).toNat =
      ([x.a, x.b, x.c, x.d].getD (j.toNat / 4) 0).toNat / 2 ^ (8 * (j.toNat % 4)) % 256 := by
  rw [digestByte_eq_extract, BitVec.extractLsb'_toNat, Nat.shiftRight_eq_div_pow]

theorem hexNibble_toNat (k : BitVec 5) (y : Byte) :
    (hexNibble k y).toNat = if k.toNat % 2 = 0 then y.toNat / 16 else y.toNat % 16 := by
  unfold hexNibble
  split
  · rw [BitVec.extractLsb'_toNat, Nat.shiftRight_eq_div_pow]
    omega
  · rw [BitVec.extractLsb'_toNat, Nat.shiftRight_zero]

theorem hexDigit_toNat : ∀ n : BitVec 4,
    (hexDigit n).toNat = if n.toNat ≤ 9 then 0x30 + n.toNat else 0x61 + (n.toNat - 10) := by
  decide

/-- R171's `[0-9a-f]`. -/
theorem hexDigit_range (n : BitVec 4) :
    (0x30 ≤ (hexDigit n).toNat ∧ (hexDigit n).toNat ≤ 0x39) ∨
      (0x61 ≤ (hexDigit n).toNat ∧ (hexDigit n).toNat ≤ 0x66) := by
  rw [hexDigit_toNat]
  split
  case isTrue hdigit => exact .inl (by omega)
  case isFalse hletter => exact .inr (by omega)

/-! ## The reads in phase DONE (R172, R173) -/

section Reads
variable {s : State}

theorem exec_rddig_done (hc : cmdReady s = true) (hp : s.phase = .done) {j : Byte} (hj : j ≤ 0x0f) :
    exec (.rddig j) s = .next { s with rsp := some (digestByte s.H (digIndex j)) } :=
  exec_command_executes rfl (by simpa [Instr.wellFormed] using hj) hc (by simp [allowedPhase, hp])

theorem exec_rdhex_done (hc : cmdReady s = true) (hp : s.phase = .done) {k : Byte} (hk : k ≤ 0x1f) :
    exec (.rdhex k) s = .next { s with rsp := some (hexChar s.H (hexIndex k)) } :=
  exec_command_executes rfl (by simpa [Instr.wellFormed] using hk) hc (by simp [allowedPhase, hp])

end Reads

/-- Settles O18: the byte of DIG, read from the word of A to D by number. -/
theorem rddigRespondsWithTheDigestByte : Obligations.RddigRespondsWithTheDigestByte := by
  intro s j hc hp hj
  rw [exec_rddig_done hc hp hj, digestByte_eq_extract, digIndex_toNat hj]

/-- Settles O19: the nibble of the digest byte, then its character code. -/
theorem rdhexRespondsWithTheCharacter : Obligations.RdhexRespondsWithTheCharacter := by
  intro s k hc hp hk
  refine ⟨_, exec_rdhex_done hc hp hk, ?_⟩
  have hword : k.toNat / 2 / 4 = k.toNat / 8 := by omega
  rw [hexChar, hexDigit_toNat, hexNibble_toNat, digestByte_toNat, byteIndex_toNat, hexIndex_toNat hk, hword]

/-- Settles O20: the operand is none that the encoding admits, so the check of legality applies (R88). -/
theorem readIndexOutOfRangeIsIllegal : Obligations.ReadIndexOutOfRangeIsIllegal := by
  intro s i hc hi
  obtain ⟨hcommand, hstat, hresponds, hillegal⟩ :
      isEngineStep i = false ∧ i ≠ .rdstat ∧ respondsInstr i = true ∧ i.wellFormed = false := by
    rcases hi with ⟨k, rfl, hk⟩ | ⟨j, rfl, hj⟩
    · exact ⟨rfl, nofun, rfl, by simpa [Instr.wellFormed] using hk⟩
    · exact ⟨rfl, nofun, rfl, by simpa [Instr.wellFormed] using hj⟩
  rw [exec_command hcommand hstat, hresponds, hillegal]
  exact ⟨acceptCommand_illegal hc, acceptCommand_inFault hc⟩

/-! ## The digest and its writing (R156, R174) -/

section Digest
variable (msg : List Byte)

@[simp] theorem length_md5Digest : (md5Digest msg).length = 16 := List.length_ofFn

@[simp] theorem length_md5Hex : (md5Hex msg).length = 32 := List.length_ofFn

theorem getElem?_md5Digest (j : BitVec 4) :
    (md5Digest msg)[j.toNat]? = some (digestByte (md5State msg) j) := by
  rw [md5Digest, List.getElem?_ofFn, dif_pos j.isLt]
  rfl

theorem getElem?_md5Hex (k : BitVec 5) : (md5Hex msg)[k.toNat]? = some (hexChar (md5State msg) k) := by
  rw [md5Hex, List.getElem?_ofFn, dif_pos k.isLt]
  rfl

theorem exists_hexDigit_of_mem_md5Hex {c : Byte} (h : c ∈ md5Hex msg) : ∃ n, c = hexDigit n := by
  obtain ⟨k, rfl⟩ := List.mem_ofFn.1 h
  exact ⟨_, rfl⟩

/-- Character `k` writes one nibble of digest byte `k div 2`, the high one first (R171). -/
theorem getD_md5Hex_eq_hexDigit {k : Nat} (hk : k < 32) :
    (md5Hex msg).getD k 0 = hexDigit (BitVec.ofNat 4
      (if k % 2 = 0 then ((md5Digest msg).getD (k / 2) 0).toNat / 16
        else ((md5Digest msg).getD (k / 2) 0).toNat % 16)) := by
  obtain ⟨k, rfl⟩ : ∃ k' : BitVec 5, k'.toNat = k :=
    ⟨BitVec.ofNat 5 k, (BitVec.toNat_ofNat k 5).trans (Nat.mod_eq_of_lt hk)⟩
  rw [List.getD_eq_getElem?_getD, List.getD_eq_getElem?_getD, getElem?_md5Hex, ← byteIndex_toNat, getElem?_md5Digest,
    Option.getD_some, Option.getD_some, ← hexNibble_toNat, BitVec.ofNat_toNat, BitVec.setWidth_eq, hexChar]

end Digest

/-- Settles O53: the reads by their entries in the two lists, the string by its digits in pairs. -/
theorem readCommandsSpellTheDigest : Obligations.ReadCommandsSpellTheDigest := by
  intro s msg hc hp hH
  refine ⟨fun j hj => ?bytes, fun k hk => ?characters, length_md5Digest msg, length_md5Hex msg, fun c hmem => ?range,
    fun j hj => ?writing⟩
  case bytes =>
    rw [exec_rddig_done hc hp hj, hH, ← digIndex_toNat hj, getElem?_md5Digest]
  case characters =>
    rw [exec_rdhex_done hc hp hk, hH, ← hexIndex_toNat hk, getElem?_md5Hex]
  case range =>
    obtain ⟨n, rfl⟩ := exists_hexDigit_of_mem_md5Hex msg hmem
    exact hexDigit_range n
  case writing =>
    have heven : 2 * j % 2 = 0 ∧ 2 * j / 2 = j := by omega
    have hodd : (2 * j + 1) % 2 = 1 ∧ (2 * j + 1) / 2 = j := by omega
    rw [getD_md5Hex_eq_hexDigit msg (by omega), getD_md5Hex_eq_hexDigit msg (by omega)]
    simp [heven, hodd]

end Sys2Proof.Machine

/-! PROOFS. The statements of 60_exceptions.md: the commands and phases of R203, fault entry (R204), and phase FAULT
(R206). -/

namespace Sys2Proof.Machine

/-! ## Commands against phases (R203) -/

/-- A legal command in a phase that does not allow it raises SEQ_ERR (R88, R203). RDSTAT is allowed wherever
`cmd_ready` can be 1. -/
theorem exec_command_outOfPhase {i : Instr} {s : State} (hi : isEngineStep i = false) (hw : i.wellFormed = true)
    (hc : cmdReady s = true) (hp : s.phase ≠ .fault) (ha : allowedPhase i s.phase = false) :
    exec i s = .next (raiseFault .seqErr (respondsInstr i) s) := by
  have hs : i ≠ .rdstat := by
    rintro rfl
    obtain ⟨-, hfinal, -⟩ := (cmdReady_iff s).1 hc
    exact hfinal (by simpa [allowedPhase] using ha)
  rw [exec_command hi hs, hw, acceptCommand_outOfPhase hc hp ha]

/-- Settles O26: the table is `allowedPhase`, and the check of the phase decides between the two outcomes. -/
theorem commandsOutOfPhaseRaiseSeqErr : Obligations.CommandsOutOfPhaseRaiseSeqErr := by
  refine ⟨fun s hfinal => by simp [cmdReady, hfinal], fun s i executes hc hw htable => ?_⟩
  have hrow : isEngineStep i = false ∧ s.phase ≠ .fault ∧ executes = allowedPhase i s.phase := by
    generalize s.phase = p at htable ⊢
    cases i with
    | init | absorb | final | rdhex | rddig | rdstat =>
      cases p with
      | idle | absorb | done => exact ⟨rfl, nofun, htable⟩
      | final | fault => exact htable.elim
    | roundF | roundG | roundH | roundI | feedfwd | padstep0 | padstep1 | padstep2 => exact htable.elim
  obtain ⟨hi, hp, rfl⟩ := hrow
  cases ha : allowedPhase i s.phase with
  | false => exact ⟨_, exec_command_outOfPhase hi hw hc hp ha, by simp, nofun⟩
  | true =>
    exact ⟨_, exec_command_executes hi hw hc ha, nofun, fun _ =>
      ⟨commandEffect_phase_ne_fault hp, commandEffect_fcode i s⟩⟩

/-! ## Fault entry (R204) -/

section FaultEntry
variable {s t : State}

/-- A word that leads into phase FAULT from another phase does so by fault entry alone: ILLEGAL_CMD for a
reserved word, SEQ_ERR for a legal one (R202, R203). -/
theorem eq_raiseFault_of_acceptWord {cmd : BitVec 12} (hp : s.phase ≠ .fault) (h : acceptWord cmd s = .next t)
    (ht : t.phase = .fault) :
    t = raiseFault (if legalCmd cmd then .seqErr else .illegalCmd) (respondsOp (opOf cmd)) s := by
  rcases acceptWord_cases h with ⟨hf, -, -⟩ | ⟨-, hl, rfl⟩ | ⟨i, -, hd, -, rfl⟩ | ⟨i, -, -, rfl⟩
  · exact absurd hf hp
  · simp [hl]
  · simp [(legalCmd_iff cmd).2 ⟨i, hd⟩]
  · exact absurd ht (commandEffect_phase_ne_fault hp)

/-- The outputs after fault entry: the engine shows the fault and goes on accepting commands (R33, R204). -/
theorem raiseFault_outputs (c : FaultCode) (r : Bool) (hc : cmdReady s = true) :
    faultOut (raiseFault c r s) = true ∧ doneOut (raiseFault c r s) = false ∧
      cmdReady (raiseFault c r s) = true := by
  obtain ⟨hrun, -, hrst⟩ := (cmdReady_iff s).1 hc
  simp [faultOut, doneOut, cmdReady, hrun, hrst]

end FaultEntry

/-- Settles O28: the step is the acceptance of the word, which faults by `raiseFault`. -/
theorem faultEntryWritesOnlyTheLatch : Obligations.FaultEntryWritesOnlyTheLatch := by
  intro s cmd rest t hport hc hp h ht
  rw [step_cmd_ready hport hc] at h
  obtain rfl := eq_raiseFault_of_acceptWord (by exact hp) h ht
  refine ⟨?_, raiseFault_outputs _ _ hc⟩
  simp only [raiseFault_eq, respondsOp_iff_mem]
  rfl

/-! ## Phase FAULT (R206) -/

/-- Settles O29: RDSTAT by its own rule, every other word by the check of phase FAULT. -/
theorem faultPhaseIgnoresAllButRdstat : Obligations.FaultPhaseIgnoresAllButRdstat := by
  intro s cmd rest hp hrun hrst hport
  have hc : cmdReady s = true := (cmdReady_iff s).2 ⟨hrun, by simp [hp], hrst⟩
  rw [step_cmd_ready hport hc]
  refine ⟨hc, ?_, acceptWord_inFault hc hp⟩
  rintro rfl
  exact acceptWord_rdstat hc

end Sys2Proof.Machine

/-! PROOFS. The statements of 70_reset_and_hazards.md: the reset input (R230, R232). -/

namespace Sys2Proof.Machine

/-! ## The reset input (R230, R232) -/

section ResetInput
variable {s : State}

/-- No command is accepted while reset is applied (R230). -/
theorem cmdReady_of_applied (h : s.rst = true) : cmdReady s = false := by
  simp [cmdReady, h]

/-- A step in which reset is applied, or stays applied, is `underReset`: no command and no engine step. -/
theorem step_eq_underReset {rest : List HostMove}
    (h : s.port = .applyReset :: rest ∨ (s.rst = true ∧ noResetNow s.port = true ∧ portAfterWait s.port = rest)) :
    step s = .next (underReset { s with port := rest }) := by
  rcases h with hport | ⟨hrst, hmove, rfl⟩
  · exact step_applyReset hport
  · rw [step_wait hmove (.inl (cmdReady_of_applied hrst)), withoutCommand_reset (by exact hrst)]

/-- The step that releases reset leads to the reset state, for some datapath (R230). -/
theorem step_release_of_applied {rest : List HostMove} (hrst : s.rst = true) (hport : s.port = .releaseReset :: rest) :
    step s = .next { State.resetWith (Config.resetDatapath s.draws) with port := rest, draws := s.draws + 1 } := by
  rw [step_releaseReset hport, releaseReset_of_applied (by exact hrst)]

end ResetInput

/-- Settles O35: under reset by what `underReset` can do, at the release by the reset state. -/
theorem resetInputHoldsAndReleases : Obligations.ResetInputHoldsAndReleases := by
  refine ⟨fun s => cmdReady_of_applied, fun s rest h => ?applied, fun s rest hrst hport => ?released⟩
  case applied =>
    refine ⟨_, step_eq_underReset h, underReset_rst _, underReset_port _, underReset_rsp _, ?_⟩
    rw [underReset_draws]
    rcases underReset_cases { s with port := rest } with ⟨dp, hreset⟩ | hheld
    · exact .inr ⟨dp, hreset⟩
    · exact .inl hheld
  case released =>
    exact ⟨_, step_release_of_applied hrst hport, rfl, rfl, rfl, rfl, rfl, rfl, rfl, rfl,
      statusByte_resetWith (Config.resetDatapath s.draws), rfl, rfl, rfl⟩

end Sys2Proof.Machine
